-- ==== Sys2Proof/Word.lean ====
section
/-! DEFINITION. The two bit-vector widths of the block: the 32-bit register word (R8, R15) and the 8-bit
memory byte (R43). -/

namespace Sys2Proof

/-- A 32-bit unsigned value: a register, a command word, a table entry, the accumulator (R8, R15, R26, R29). -/
abbrev Word := BitVec 32

/-- One byte of system memory, or an 8-bit table index (R43, R26). -/
abbrev Byte := BitVec 8

end Sys2Proof
end

