-- ==== Sys2Proof/Config.lean ====
section
/-! DEFINITION. What the platform fixes (R7, R38; decisions D3, D4) and the values the spec leaves without a
number. The platform's parameters are plain data that `State` holds, so every statement quantifies over them. -/

namespace Sys2Proof

/-- The open parameters of the block's surroundings (R7, U20, U21). No step changes them. -/
structure Platform where
  /-- `CRC_BASE`, the first host address of the register block (R38): OPEN, a multiple of 32. -/
  crcBase : Nat
  /-- `ADDR_W`, the width of system-memory addresses (R7, D4): 32, or a parameter in 1..32. -/
  addrW : Nat
deriving DecidableEq, Repr

/-- The parameters the machine has after reset (log 3): `ADDR_W` as D4 decides it, and one sample `CRC_BASE`.
DESIGN CHOICE for `CRC_BASE`, which the spec leaves OPEN; unsafe for a claim that reads the number 0 here. -/
def Platform.default : Platform := { crcBase := 0, addrW := 32 }

/-- What a 32-bit engine register that holds NoValue would read as (R29). A free value: it has no body, so nothing
can be proved of it (log 5). -/
opaque Config.noValueWord : Word

/-- What a counter of the sequencer that holds NoValue would read as (R30, R31). A free value (log 5). -/
opaque Config.noValueCount : Nat

/-- The byte that the platform gives the `n`-th host load of an address whose value the memory does not list. A free value:
`State.hostLoads` counts the loads, so each has its own (logs 5, 16). -/
opaque Config.platformByte : Nat → Byte

end Sys2Proof
end

