-- ==== Sys2Proof/Syntax.lean ====
section
/-! DEFINITION. The command set of the block: one constructor per row of the opcode table (R61). -/

namespace Sys2Proof

/-- The four commands (R58, R61). CHECKSUM is the only one with an operand in its word (R65): `P`, bit 8, which says
that the buffer is present (R59). Its other operands are the registers BUF_ADDR and BUF_LEN, read at acceptance (R84). -/
inductive Instr where
  /-- NOP (R100). -/
  | nop
  /-- BUILD_TABLE (R73). -/
  | buildTable
  /-- CHECKSUM (R81) with its P bit: `true` is the present form, `false` the absent form `CHECKSUM.A` (R66, R82). -/
  | checksum (p : Bool)
  /-- INVALIDATE_TABLE (R77). -/
  | invalidateTable
deriving DecidableEq, Repr

end Sys2Proof
end

