-- ==== Sys2Proof/WellFormed.lean ====
section
/-! DEFINITION. Which command words are legal, said of their three fields (R57 to R60), and which platform parameters
are legal (R7, R38). Every term of `Instr` is well formed, since its one operand is a Bool; what can be ill formed is a
word's fields. -/

namespace Sys2Proof

/-- The three fields of a command word (R57). -/
structure CommandFields where
  /-- OP, bits [7:0] (R58). -/
  op : BitVec 8
  /-- P, bit 8 (R59). -/
  p : Bool
  /-- RSV, bits [31:9] (R60). -/
  rsv : BitVec 23
deriving DecidableEq, Repr

/-- RSV must be 0 for every command (R60). -/
def CommandFields.rsvZero (f : CommandFields) : Bool := f.rsv == 0#23

/-- The defined values of OP are 0x00 to 0x03 (R58). -/
def CommandFields.opDefined (f : CommandFields) : Bool :=
  f.op == 0#8 || f.op == 1#8 || f.op == 2#8 || f.op == 3#8

/-- P is reserved, and must be 0, for every command but CHECKSUM (R59). -/
def CommandFields.pAllowed (f : CommandFields) : Bool := !f.p || f.op == 2#8

/-- A command word's fields are those of a legal word (R58 to R60). -/
def CommandFields.wf (f : CommandFields) : Bool := f.rsvZero && f.opDefined && f.pAllowed

/-- The fields of an instruction's word (R58, R59, R60). -/
def Instr.fields : Instr → CommandFields
  | .nop => { op := 0x00#8, p := false, rsv := 0#23 }
  | .buildTable => { op := 0x01#8, p := false, rsv := 0#23 }
  | .checksum p => { op := 0x02#8, p := p, rsv := 0#23 }
  | .invalidateTable => { op := 0x03#8, p := false, rsv := 0#23 }

/-- An instruction is well formed when the fields of its word are. -/
def Instr.wf (i : Instr) : Bool := i.fields.wf

/-- `CRC_BASE` is a multiple of 32 (R38). -/
def Platform.baseAligned (p : Platform) : Bool := p.crcBase % 32 == 0

/-- `ADDR_W` lies in 1..32 (D4, U21). -/
def Platform.addrWInRange (p : Platform) : Bool := decide (1 ≤ p.addrW) && decide (p.addrW ≤ 32)

/-- Legal platform parameters (R7, R38). -/
def Platform.wf (p : Platform) : Bool := p.baseAligned && p.addrWInRange

end Sys2Proof
end

