-- ==== Sys2Proof/Decode.lean ====
section
/-! DEFINITION. The decoder of command words, total on all 2^32 words (R61, R64), the names it rejects the illegal
ones by (R58 to R60, R63), and after it the encoder, written from the same field layout (R57). -/

namespace Sys2Proof

/-- Why a command word is illegal. The block reports all three as ILLEGAL_COMMAND (R63); the names say which field
rule the word breaks. -/
inductive DecodeError where
  /-- Some bit of RSV, bits [31:9], is set (R60). -/
  | reservedBits
  /-- OP is one of the reserved values 0x04 to 0xFF (R58). -/
  | reservedOp
  /-- P is set on a command other than CHECKSUM (R59). -/
  | reservedP
deriving DecidableEq, Repr

/-- The fields of a word (R57): OP is bits [7:0], P is bit 8, RSV is bits [31:9]. -/
def fieldsOf (w : Word) : CommandFields :=
  { op := w.extractLsb' 0 8, p := w.getLsbD 8, rsv := w.extractLsb' 9 23 }

/-- The rule an illegal word breaks: RSV is looked at first ("whatever its OP", R60), then OP, then P. -/
def whyIllegal (w : Word) : DecodeError :=
  if !(fieldsOf w).rsvZero then .reservedBits
  else if !(fieldsOf w).opDefined then .reservedOp
  else .reservedP

/-- One row of the opcode table matches a word when `w & mask == match` (R61). -/
def rowMatches (pattern mask w : Word) : Bool := (w &&& mask) == pattern

/-- The decoder: the rows of R61 in the order in which `Dispatch` tries them (R62); a word that matches no row is
illegal (R63). -/
def decode (w : Word) : Except DecodeError Instr :=
  if rowMatches 0x00000000#32 0xFFFFFFFF#32 w then .ok .nop
  else if rowMatches 0x00000001#32 0xFFFFFFFF#32 w then .ok .buildTable
  else if rowMatches 0x00000002#32 0xFFFFFEFF#32 w then .ok (.checksum (w.getLsbD 8))
  else if rowMatches 0x00000003#32 0xFFFFFFFF#32 w then .ok .invalidateTable
  else .error (whyIllegal w)

/-- The word with the given fields: RSV, P and OP from the top bit down (R57). -/
def wordOfFields (f : CommandFields) : Word := f.rsv ++ BitVec.ofBool f.p ++ f.op

/-- The command word of an instruction (R61, R66). -/
def encode (i : Instr) : Word := wordOfFields i.fields

/-- The instruction the decoder reads from a table row's word of `nbits` bits. Every command is one 32-bit word
(R57), so bits at and above `nbits` are 0 and a word is its value. -/
def decodeTableWord (nbits w : Nat) : Option Instr :=
  match decode (BitVec.ofNat 32 (w % 2 ^ nbits)) with
  | .ok i => some i
  | .error _ => none

end Sys2Proof
end

