-- ==== Sys2Proof/Machine/State.lean ====
section
/-! DEFINITION. The state of the machine: the block's record of R36, and around it the system memory its port reads
(R43), the platform's parameters (R7), the moves of the agents outside the engine that are still to come (R11) and the
answer of the last host read (R39). All of it is plain data. -/

namespace Sys2Proof.Machine

/-- Sparse storage: (index, value) pairs with strictly rising indices. An index with no pair holds no value. Equal
storages are equal lists. -/
abbrev Cells (α : Type) := List (Nat × α)

/-- System memory (R43): the bytes the platform's memory admits a read of, each with its value (R44). An address that is
not listed is not admitted (log 2). -/
abbrev Memory := Cells (BitVec 8)

/-- The Lookup Table `T` (R26), keyed by the flat index `256*t + i`. An index that is not listed is an entry that holds
NoValue (R27). -/
abbrev Table := Cells Word

/-- Whether a checksum follows the build in progress (R28). -/
inductive Chain where
  /-- NONE: the build is the whole operation (R73). -/
  | none
  /-- CHECKSUM: the build was started by a CHECKSUM that found no table (R83). -/
  | checksum
deriving DecidableEq, Repr

/-- The engine phase (R28). -/
inductive Phase where
  /-- No operation; BUSY = 0. -/
  | idle
  /-- A build in progress; `i` in 0..255 is the next table index (R28, R32). -/
  | build (i : Byte) (chain : Chain)
  /-- A checksum in progress over `ptr`, `rem`, `crc`. -/
  | crc
deriving DecidableEq, Repr

/-- The error codes the block produces (R19, R103). -/
inductive ErrCode where
  | none
  | invalidArgument
  | illegalCommand
  | busyReject
deriving DecidableEq, Repr

/-- The model faults of R104: the machine stops. Each is raised where the spec gives the hardware no behaviour. -/
inductive Fault where
  /-- UNDEFINED_ACCESS(a): raised by an engine read of a byte the memory does not admit (R44, R89). Safe. -/
  | undefinedAccess (a : Nat)
  /-- ADDRESS_WRAP: raised by an engine read at an address at or above 2^ADDR_W (R45, R89). Safe. -/
  | addressWrap
  /-- HAZARD_BUFFER_WRITE(a): raised by another agent's store into the latched range of a running CHECKSUM (R54). Safe. -/
  | hazardBufferWrite (a : Nat)
  /-- TABLE_UNBUILT: raised by a read of a table entry while TABLE_VALID = 0 (R27). Safe; no state a run reaches raises it. -/
  | tableUnbuilt
deriving DecidableEq, Repr

/-- The accesses the model gives no meaning to (R41): the machine stops. -/
inductive Refusal where
  /-- An instruction whose meaning is not written. Raised by no arm of this model. Safe. -/
  | notModelled (mnemonic : String)
  /-- MMIO_WIDTH: a register access that is not 32 bits wide (R41). Raised by a host access. Safe. -/
  | mmioWidth
  /-- MMIO_MISALIGNED: a register access that is not at CRC_BASE plus a multiple of 4 (R41). Raised by a host access. Safe. -/
  | mmioMisaligned
  /-- MMIO_ATOMIC: a host read-modify-write atomic on the register block (R41). Raised by a host access. Safe. -/
  | mmioAtomic
  /-- A host access to the host register space that does not begin in `[CRC_BASE, CRC_BASE + 32)`, one that begins below
  CRC_BASE and runs into the block among them: the address is the platform's, not the block's (R50; log 8). Safe. -/
  | outsideBlock (a : Nat)
  /-- A host's load at or above 2^ADDR_W, where system memory has no byte (R43; log 8). Safe. -/
  | loadOutsideMemory (a : Nat)
  /-- Another agent's store at or above 2^ADDR_W, where system memory has no byte (R43; log 8). Safe. -/
  | storeOutsideMemory (a : Nat)
deriving DecidableEq, Repr

/-- The registers of the block (R15). -/
inductive Reg where
  | cmd
  | status
  | bufAddr
  | bufLen
  | result
  | reserved
deriving DecidableEq, Repr

/-- What a host does at one address of the register block (R11, R39 to R41). -/
inductive AccessKind where
  | read
  | write (w : Word)
  /-- A read-modify-write atomic operation, which R41 refuses. -/
  | atomic
deriving DecidableEq, Repr

/-- One access by a host to an address of its own address space (R37). The block itself sees no host number (R116). -/
structure HostAccess where
  host : Nat
  addr : Nat
  bits : Nat
  kind : AccessKind
deriving DecidableEq, Repr

/-- One move of an agent (R11). -/
inductive Move where
  /-- The engine takes its next micro-step (R11). -/
  | engine
  /-- A host accesses the register block (R39, R40). -/
  | access (a : HostAccess)
  /-- A host loads one byte of system memory (R11, R43; log 16). -/
  | load (host : Nat) (a : Nat)
  /-- An agent other than the engine stores one byte to system memory (R43, R54). -/
  | store (a : Nat) (b : Byte)
  /-- A host's WAITIDLE: it polls STATUS until BUSY reads 0 (R68). -/
  | waitIdle (host : Nat)
  /-- The reset input (R120). -/
  | reset
deriving DecidableEq, Repr

/-- What a host read or load returned, and to which host (R11, R39). -/
structure HostAnswer where
  host : Nat
  value : Word
deriving DecidableEq, Repr

/-- The machine's state. The fields down to `fault` are the record of R36. -/
structure State where
  /-- STATUS.ERR, 3 bits (R19). -/
  err : BitVec 3
  /-- STATUS.DONE (R18). -/
  done : Bool
  /-- STATUS.TABLE_VALID (R20). -/
  tableValid : Bool
  /-- BUF_ADDR (R22). -/
  bufAddr : Word
  /-- BUF_LEN (R23). -/
  bufLen : Word
  /-- RESULT (R24). -/
  result : Word
  /-- The Lookup Table `T` (R26, R27). -/
  table : Table
  /-- The engine phase (R28). BUSY is derived from it (R17). -/
  phase : Phase
  /-- The accumulator (R29); `none` is NoValue. -/
  crc : Option Word
  /-- The read pointer, an exact integer (R30); `none` is NoValue. -/
  ptr : Option Nat
  /-- The first address of the latched range (R30); `none` is NoValue. -/
  addr0 : Option Nat
  /-- The length of the latched range (R30); `none` is NoValue. -/
  len0 : Option Nat
  /-- The remaining count (R31); `none` is NoValue. -/
  rem : Option Nat
  /-- The model fault recorded, if any (R36, R104, R119). -/
  fault : Option Fault
  /-- The refusal recorded, if any (R41, R134). -/
  refusal : Option Refusal
  /-- The platform's parameters (R7). The model's own field; no step writes it. -/
  platform : Platform
  /-- System memory as the engine's port sees it (R43, R44). The platform's, not the block's. -/
  mem : Memory
  /-- The moves still to come, the next one first (R11). The model's own field: the schedule. -/
  agenda : List Move
  /-- The answer to the last host read or load (R11, R39). The model's own field: the bus's read data. -/
  hostAnswer : Option HostAnswer
  /-- How many host loads were answered with a free byte (log 16). The model's own field: the counter of free values. -/
  hostLoads : Nat
deriving DecidableEq, Repr

/-- The machine right after reset (R121): the values of R121, no fault or refusal recorded, and around the block the
default platform, a memory that lists nothing, no move to come, no answer and no load counted (logs 2, 3, 4). -/
def State.reset : State where
  err := 0#3
  done := false
  tableValid := false
  bufAddr := 0#32
  bufLen := 0#32
  result := 0#32
  table := []
  phase := .idle
  crc := none
  ptr := none
  addr0 := none
  len0 := none
  rem := none
  fault := none
  refusal := none
  platform := .default
  mem := []
  agenda := []
  hostAnswer := none
  hostLoads := 0

end Sys2Proof.Machine
end

