-- ==== Sys2Proof/Machine/Ops.lean ====
section
/-! DEFINITION. The named operations over storage and registers: sparse cells (R26, R43), the engine's byte reads
(R44, R45, R89), the block's error reports, which stand where another machine would take an exception (R103, R110),
and reset (R120, R121). -/

namespace Sys2Proof.Machine

/-! ### Sparse cells -/

/-- The value at an index, or `none` where no value is held. -/
def Cells.read {α : Type} : Cells α → Nat → Option α
  | [], _ => none
  | (k, v) :: rest, a => if a = k then some v else Cells.read rest a

/-- Write a value at an index, keeping the indices rising. -/
def Cells.write {α : Type} : Cells α → Nat → α → Cells α
  | [], a, x => [(a, x)]
  | (k, v) :: rest, a, x =>
    if a < k then (a, x) :: (k, v) :: rest
    else if a = k then (a, x) :: rest
    else (k, v) :: Cells.write rest a x

/-- Every index of the cells is above `lo`, and the indices rise. -/
def Cells.risingFrom {α : Type} (lo : Nat) : Cells α → Bool
  | [] => true
  | (k, _) :: rest => decide (lo < k) && Cells.risingFrom k rest

/-- The canonical form: the indices rise strictly. -/
def Cells.rising {α : Type} : Cells α → Bool
  | [] => true
  | (k, _) :: rest => Cells.risingFrom k rest

/-- Every index is below `n`. -/
def Cells.below {α : Type} (n : Nat) (c : Cells α) : Bool := c.all fun e => decide (e.1 < n)

/-- Memory is in canonical form, within the `2^addrW` bytes of system memory (R43). -/
def Memory.wf (addrW : Nat) (m : Memory) : Bool := Cells.rising m && Cells.below (2 ^ addrW) m

/-- The table is in canonical form, within its 4096 words (R26). -/
def Table.wf (T : Table) : Bool := Cells.rising T && Cells.below 4096 T

/-! ### The engine's read port -/

/-- The number of addresses of system memory, `2^ADDR_W` (R43). -/
def State.memSize (s : State) : Nat := 2 ^ s.platform.addrW

/-- `MemRead(a, 1)` (R44): ADDRESS_WRAP at or above `2^ADDR_W` (R45), else UNDEFINED_ACCESS where the memory admits no
read, else the byte. -/
def State.memRead (s : State) (a : Nat) : Except Fault Byte :=
  if s.memSize ≤ a then .error .addressWrap
  else match s.mem.read a with
    | none => .error (.undefinedAccess a)
    | some b => .ok b

/-- The `n` bytes from `a`, read in increasing address order; the first address that faults gives the fault (R89,
R109). -/
def State.readBytes (s : State) (a : Nat) : (n : Nat) → Except Fault (Vector Byte n)
  | 0 => .ok #v[]
  | n + 1 =>
    match s.readBytes a n with
    | .error f => .error f
    | .ok bs =>
      match s.memRead (a + n) with
      | .error f => .error f
      | .ok b => .ok (bs.push b)

/-! ### Engine registers that may hold NoValue (R29 to R31; log 5) -/

/-- The accumulator as a step reads it. -/
def State.crcValue (s : State) : Word := s.crc.getD Config.noValueWord

/-- The read pointer as a step reads it. -/
def State.ptrValue (s : State) : Nat := s.ptr.getD Config.noValueCount

/-- The remaining count as a step reads it. -/
def State.remValue (s : State) : Nat := s.rem.getD Config.noValueCount

/-- The first latched address as a step reads it. -/
def State.addr0Value (s : State) : Nat := s.addr0.getD Config.noValueCount

/-- The latched length as a step reads it. -/
def State.len0Value (s : State) : Nat := s.len0.getD Config.noValueCount

/-! ### Error codes and error reports -/

/-- The 3-bit code of an error (R19). -/
def ErrCode.code : ErrCode → BitVec 3
  | .none => 0#3
  | .invalidArgument => 1#3
  | .illegalCommand => 2#3
  | .busyReject => 3#3

/-- `setErr(code)` (R10, R19): STATUS.ERR takes the code and nothing else changes. -/
def State.setErr (c : ErrCode) (s : State) : State := { s with err := c.code }

/-- A command that reports an error and is over (R63, R82, R110): ERR takes the code and DONE becomes 1. The block has no
trap entry: no state is saved and there is no vector (R110). This is the one operation behind INVALID_ARGUMENT and
ILLEGAL_COMMAND. There is no return from it (R111): the next accepted command clears ERR and DONE. -/
def State.reportError (c : ErrCode) (s : State) : State := { s with err := c.code, done := true }

/-! ### Reset -/

/-- The reset input (R120, R121, R122): every piece of the block's state takes its reset value. The surroundings, the
recorded fault (R119) and the recorded refusal stay as they are. -/
def State.resetBlock (s : State) : State :=
  { s with
    err := 0#3, done := false, tableValid := false, bufAddr := 0#32, bufLen := 0#32, result := 0#32,
    table := [], phase := .idle, crc := none, ptr := none, addr0 := none, len0 := none, rem := none }

/-! ### System memory as other agents store to it -/

/-- The byte `a` lies in the range a running CHECKSUM has latched (R54): a CHECKSUM is running while the phase is CRC or
a build chained to a checksum. -/
def State.inLatchedRange (s : State) (a : Nat) : Bool :=
  match s.phase with
  | .idle => false
  | .build _ .none => false
  | .build _ .checksum => decide (s.addr0Value ≤ a ∧ a < s.addr0Value + s.len0Value)
  | .crc => decide (s.addr0Value ≤ a ∧ a < s.addr0Value + s.len0Value)

/-- A store of one byte by an agent other than the engine: a hazard in the latched range (R54), else the memory holds
the byte from then on (R52; log 2). -/
def storeByte (a : Nat) (b : Byte) (s : State) : Host.Outcome State Fault Refusal :=
  if s.memSize ≤ a then .refused (.storeOutsideMemory a)
  else if s.inLatchedRange a then .fault (.hazardBufferWrite a)
  else .next { s with mem := s.mem.write a b }

/-! ### Answers to hosts -/

/-- The bus hands a read value to a host (R39). -/
def State.answer (host : Nat) (v : Word) (s : State) : State := { s with hostAnswer := some ⟨host, v⟩ }

/-- A host's load of one byte of system memory (R11, R43): the byte the memory lists, and a free value, new for each load,
where it lists none (log 16). The block does not see the load. -/
def loadByte (host a : Nat) (s : State) : Host.Outcome State Fault Refusal :=
  if s.memSize ≤ a then .refused (.loadOutsideMemory a)
  else match s.mem.read a with
    | some b => .next (s.answer host (b.setWidth 32))
    | none =>
      .next { s.answer host ((Config.platformByte s.hostLoads).setWidth 32) with hostLoads := s.hostLoads + 1 }

end Sys2Proof.Machine
end

