-- ==== Sys2Proof/Machine/Operands.lean ====
section
/-! DEFINITION. Operand forms: the bytes of the accumulator (R9), the flat index of the table (R26), the latching of
BUF_ADDR and BUF_LEN (R84), the register an offset selects (R15, R38, R41) and the width of BUF_ADDR (R22). -/

namespace Sys2Proof.Machine

/-- `POLY`, the bit-reversed CRC-32 polynomial (R6). -/
def poly : Word := 0xEDB88320#32

/-- `INIT` (R6): the accumulator's first value (R84). -/
def crcInit : Word := 0xFFFFFFFF#32

/-- `XOROUT` (R6): the final XOR (R88). -/
def crcXorOut : Word := 0xFFFFFFFF#32

/-- `byte_k(x) = x[8k+7:8k]` (R9). -/
def byteOf (k : Nat) (x : Word) : Byte := x.extractLsb' (8 * k) 8

/-- The flat index `256*t + i` of entry `i` of slice `t` (R26). -/
def tableIndex (t : Nat) (i : Byte) : Nat := 256 * t + i.toNat

/-- `T[t][i]` (R26): the entry's word, or `none` for NoValue (R27). -/
def Table.entry (T : Table) (t : Nat) (i : Byte) : Option Word := Cells.read T (tableIndex t i)

/-- `T[t][i] <- v` (R26). -/
def Table.setEntry (T : Table) (t : Nat) (i : Byte) (v : Word) : Table := Cells.write T (tableIndex t i) v

/-- A read of a table entry by the engine: an entry is read only while TABLE_VALID = 1 (R27). `none` is the case that
faults TABLE_UNBUILT. -/
def State.lookup (s : State) (t : Nat) (i : Byte) : Option Word :=
  if s.tableValid then s.table.entry t i else none

/-- `StartCrc()` (R84): latch the operands and set the accumulator to its first value. -/
def State.startCrc (s : State) : State :=
  { s with
    ptr := some s.bufAddr.toNat, addr0 := some s.bufAddr.toNat, len0 := some s.bufLen.toNat,
    rem := some s.bufLen.toNat, crc := some crcInit }

/-- `w[ADDR_W-1:0]`, what BUF_ADDR stores of a written word (R22, R40). -/
def truncAddr (p : Platform) (w : Word) : Word := BitVec.ofNat 32 (w.toNat % 2 ^ p.addrW)

/-- The register at a byte offset into the block (R15). `none` for an offset that is not a multiple of 4 in
0x00..0x1C. -/
def regAt (offset : Nat) : Option Reg :=
  if offset = 0x00 then some .cmd
  else if offset = 0x04 then some .status
  else if offset = 0x08 then some .bufAddr
  else if offset = 0x0C then some .bufLen
  else if offset = 0x10 then some .result
  else if offset = 0x14 then some .reserved
  else if offset = 0x18 then some .reserved
  else if offset = 0x1C then some .reserved
  else none

/-- The register a host access selects, or why the access is refused (R38, R41, R50). Where an access belongs is told by its
first address alone: an access that begins below CRC_BASE and runs into the block is refused as outsideBlock, and one that
begins in the block and runs past its end as MMIO_WIDTH or MMIO_MISALIGNED. DESIGN CHOICE (log 8), as is the order in which
the conditions are looked at. -/
def selectReg (p : Platform) (a : HostAccess) : Except Refusal Reg :=
  if a.addr < p.crcBase ∨ p.crcBase + 32 ≤ a.addr then .error (.outsideBlock a.addr)
  else if a.bits ≠ 32 then .error .mmioWidth
  else match regAt (a.addr - p.crcBase) with
    | none => .error .mmioMisaligned
    | some r => .ok r

end Sys2Proof.Machine
end

