-- ==== Sys2Proof/Machine/Flags.lean ====
section
/-! DEFINITION. The STATUS register: its fields' updates and the word a host reads (R17 to R21), and the acceptance
rule every CMD write goes through (R62). -/

namespace Sys2Proof.Machine

/-- BUSY (R17, R28): the phase is not IDLE. -/
def State.busy (s : State) : Bool :=
  match s.phase with
  | .idle => false
  | .build _ _ => true
  | .crc => true

/-- The word a read of STATUS returns: `zext_32({ERR, 0b0, TABLE_VALID, DONE, BUSY})` (R21). -/
def State.statusWord (s : State) : Word :=
  (s.err ++ 0#1 ++ BitVec.ofBool s.tableValid ++ BitVec.ofBool s.done ++ BitVec.ofBool s.busy).setWidth 32

/-- Acceptance of a command (R62): DONE and ERR are cleared. -/
def State.accept (s : State) : State := { s with done := false, err := ErrCode.none.code }

/-- A command that finishes without error: DONE becomes 1 (R18). -/
def State.finish (s : State) : State := { s with done := true }

/-- A CMD write (R62): while BUSY = 1 the write is dropped with BUSY_REJECT, otherwise the command is accepted and
`body` runs. -/
def issue (body : State → State) (s : State) : State :=
  if s.busy then s.setErr .busyReject else body s.accept

end Sys2Proof.Machine
end

