-- ==== Sys2Proof/Machine/TableBuilder.lean ====
section
/-! DEFINITION. The Table Builder: the reduction functions (R69, R70), the table's closed form (R71), the build
micro-step (R74, R75) and the commands BUILD_TABLE (R73) and INVALIDATE_TABLE (R77). -/

namespace Sys2Proof.Machine

/-- One bit of CRC reduction (R69). -/
def reduce1 (x : Word) : Word := if x &&& 1#32 = 1#32 then poly ^^^ (x >>> 1) else x >>> 1

/-- `reduce1` applied 8 times (R70). -/
def reduce8 (x : Word) : Word :=
  reduce1 (reduce1 (reduce1 (reduce1 (reduce1 (reduce1 (reduce1 (reduce1 x)))))))

/-- `reduce8` applied `n` times. -/
def reducePow : Nat → Word → Word
  | 0, x => x
  | n + 1, x => reduce8 (reducePow n x)

/-- The content of entry `i` of slice `t` after a build: `reduce8^(t+1)(zext_32(i))` (R71). -/
def tableValue (t : Nat) (i : Byte) : Word := reducePow (t + 1) (i.setWidth 32)

/-- The loop of the build micro-step after `n` of its rounds (R74): the running `res` and the table. Round `t` sets
`res` to `reduce8(res)` and writes it to `T[t][i]`. -/
def buildRounds (i : Byte) (T : Table) : Nat → Word × Table
  | 0 => (i.setWidth 32, T)
  | t + 1 =>
    let r := buildRounds i T t
    let res := reduce8 r.1
    (res, r.2.setEntry t i res)

/-- The table after the 16 entries of index `i` are written (R74). -/
def buildRow (i : Byte) (T : Table) : Table := (buildRounds i T 16).2

/-- `BuildComplete(chain)` (R75). -/
def buildComplete (chain : Chain) (s : State) : State :=
  match chain with
  | .none => { s with tableValid := true, phase := .idle, done := true }
  | .checksum => { s with tableValid := true, phase := .crc }

/-- The build micro-step (R74). -/
def buildStep (i : Byte) (chain : Chain) (s : State) : State :=
  let s := { s with table := buildRow i s.table }
  if i.toNat < 255 then { s with phase := .build (i + 1#8) chain } else buildComplete chain s

/-- What BUILD_TABLE does once accepted (R73). -/
def buildTableBody (s : State) : State :=
  if s.tableValid then s.finish else { s with phase := .build 0#8 .none }

/-- BUILD_TABLE (R73): a CMD write of its word (R62). -/
def execBuildTable (s : State) : Host.Outcome State Fault Refusal := .next (issue buildTableBody s)

/-- What INVALIDATE_TABLE does once accepted (R77): no entry holds a value any more. -/
def invalidateTableBody (s : State) : State := State.finish { s with tableValid := false, table := [] }

/-- INVALIDATE_TABLE (R77): a CMD write of its word (R62). -/
def execInvalidateTable (s : State) : Host.Outcome State Fault Refusal := .next (issue invalidateTableBody s)

end Sys2Proof.Machine
end

