-- ==== Sys2Proof/Machine/ChecksumEngine.lean ====
section
/-! DEFINITION. The Checksum Engine: the window and byte formulas (R86, R87), the CRC micro-steps and their sequencer
(R85 to R89), the command CHECKSUM (R81 to R84), and the function the operation computes (R90, R91). -/

namespace Sys2Proof.Machine

/-- The XOR of four table entries: one of the window's four partial values (R33, R86). `none` if an entry cannot be
read. -/
def partialXor (w x y z : Option Word) : Option Word :=
  match w, x, y, z with
  | some w, some x, some y, some z => some (w ^^^ x ^^^ y ^^^ z)
  | _, _, _, _ => none

/-- The slice-by-16 formula (R86): the new accumulator from the old one and the window's bytes, or `none` if a table
entry cannot be read (R27). -/
def windowCrc (look : Nat → Byte → Option Word) (crc : Word) (b : Fin 16 → Byte) : Option Word :=
  let d := partialXor (look 15 (byteOf 0 crc ^^^ b 0)) (look 14 (byteOf 1 crc ^^^ b 1))
    (look 13 (byteOf 2 crc ^^^ b 2)) (look 12 (byteOf 3 crc ^^^ b 3))
  let c := partialXor (look 11 (b 4)) (look 10 (b 5)) (look 9 (b 6)) (look 8 (b 7))
  let bb := partialXor (look 7 (b 8)) (look 6 (b 9)) (look 5 (b 10)) (look 4 (b 11))
  let a := partialXor (look 3 (b 12)) (look 2 (b 13)) (look 1 (b 14)) (look 0 (b 15))
  partialXor a bb c d

/-- The byte-at-a-time formula (R87): `T[0][byte_0(crc) ^ x] ^ (crc >> 8)`. -/
def byteCrc (look : Nat → Byte → Option Word) (crc : Word) (x : Byte) : Option Word :=
  match look 0 (byteOf 0 crc ^^^ x) with
  | none => none
  | some e => some (e ^^^ (crc >>> 8))

/-- The state after a micro-step that took in `n` bytes and left the accumulator at `crc` (R86, R87). -/
def State.advanceCrc (crc : Word) (n : Nat) (s : State) : State :=
  { s with crc := some crc, ptr := some (s.ptrValue + n), rem := some (s.remValue - n) }

/-- WindowStep (R86, R89). -/
def windowStep (s : State) : Host.Outcome State Fault Refusal :=
  match s.readBytes s.ptrValue 16 with
  | .error f => .fault f
  | .ok b =>
    match windowCrc s.lookup s.crcValue (fun k => b[k.val]) with
    | none => .fault .tableUnbuilt
    | some crc => .next (s.advanceCrc crc 16)

/-- ByteStep (R87, R89). -/
def byteStep (s : State) : Host.Outcome State Fault Refusal :=
  match s.memRead s.ptrValue with
  | .error f => .fault f
  | .ok x =>
    match byteCrc s.lookup s.crcValue x with
    | none => .fault .tableUnbuilt
    | some crc => .next (s.advanceCrc crc 1)

/-- FinalStep (R88). -/
def finalStep (s : State) : Host.Outcome State Fault Refusal :=
  .next { s with result := s.crcValue ^^^ crcXorOut, done := true, phase := .idle }

/-- The micro-step of phase CRC, chosen by `rem` alone (R85). -/
def crcStep (s : State) : Host.Outcome State Fault Refusal :=
  if 16 ≤ s.remValue then windowStep s
  else if 1 ≤ s.remValue then byteStep s
  else finalStep s

/-- The engine's next micro-step (R11, R35). The idle engine takes no step (R118). -/
def engineStep (s : State) : Host.Outcome State Fault Refusal :=
  match s.phase with
  | .idle => .next s
  | .build i chain => .next (buildStep i chain s)
  | .crc => crcStep s

/-- What CHECKSUM does once accepted (R81): with P = 0 it reports INVALID_ARGUMENT (R82); with P = 1 it latches its
operands (R84) and enters the CRC phase, through a build if there is no table (R83). -/
def checksumBody (p : Bool) (s : State) : State :=
  if p then
    if s.tableValid then { s.startCrc with phase := .crc }
    else { s.startCrc with phase := .build 0#8 .checksum }
  else s.reportError .invalidArgument

/-- CHECKSUM (R81): a CMD write of its word (R62). -/
def execChecksum (p : Bool) (s : State) : Host.Outcome State Fault Refusal := .next (issue (checksumBody p) s)

/-! ### The function the operation computes -/

/-- The window formula of R86 over the finished table (R71). -/
def windowFormula (crc : Word) (b : Fin 16 → Byte) : Word :=
  let d := tableValue 15 (byteOf 0 crc ^^^ b 0) ^^^ tableValue 14 (byteOf 1 crc ^^^ b 1)
    ^^^ tableValue 13 (byteOf 2 crc ^^^ b 2) ^^^ tableValue 12 (byteOf 3 crc ^^^ b 3)
  let c := tableValue 11 (b 4) ^^^ tableValue 10 (b 5) ^^^ tableValue 9 (b 6) ^^^ tableValue 8 (b 7)
  let bb := tableValue 7 (b 8) ^^^ tableValue 6 (b 9) ^^^ tableValue 5 (b 10) ^^^ tableValue 4 (b 11)
  let a := tableValue 3 (b 12) ^^^ tableValue 2 (b 13) ^^^ tableValue 1 (b 14) ^^^ tableValue 0 (b 15)
  a ^^^ bb ^^^ c ^^^ d

/-- The byte formula of R87 over the finished table (R71). -/
def byteFormula (crc : Word) (x : Byte) : Word := tableValue 0 (byteOf 0 crc ^^^ x) ^^^ (crc >>> 8)

/-- The accumulator `crc` after the byte-at-a-time recurrence has taken in `b 0 .. b (n-1)` (R91). -/
def bytewiseFrom (crc : Word) (b : Nat → Byte) : Nat → Word
  | 0 => crc
  | n + 1 => byteFormula (bytewiseFrom crc b n) (b n)

/-- The accumulator after the first `q` windows of `b` (R90, R93). -/
def afterWindows (b : Nat → Byte) : Nat → Word
  | 0 => crcInit
  | q + 1 => windowFormula (afterWindows b q) (fun k => b (16 * q + k.val))

/-- `Checksum(S)` of the `n` bytes `b 0 .. b (n-1)` (R90): all whole windows, then the tail, then the final XOR. -/
def checksumOf (b : Nat → Byte) (n : Nat) : Word :=
  bytewiseFrom (afterWindows b (n / 16)) (fun k => b (16 * (n / 16) + k)) (n % 16) ^^^ crcXorOut

/-- The canonical byte-at-a-time CRC32 of `b 0 .. b (n-1)` (R91). -/
def canonicalCrc (b : Nat → Byte) (n : Nat) : Word := bytewiseFrom crcInit b n ^^^ crcXorOut

end Sys2Proof.Machine
end

