-- ==== Sys2Proof/Machine/Control.lean ====
section
/-! DEFINITION. NOP (R100) and the illegal command word (R63). -/

namespace Sys2Proof.Machine

/-- What NOP does once accepted (R100). -/
def nopBody (s : State) : State := s.finish

/-- NOP (R100): a CMD write of its word (R62). -/
def execNop (s : State) : Host.Outcome State Fault Refusal := .next (issue nopBody s)

/-- `ILLEGAL(w)` once accepted (R63): ERR = ILLEGAL_COMMAND and DONE = 1. -/
def illegalBody (s : State) : State := s.reportError .illegalCommand

/-- A CMD write of a word that matches no row of the opcode table (R62, R63). -/
def illegalCommand (s : State) : Host.Outcome State Fault Refusal := .next (issue illegalBody s)

end Sys2Proof.Machine
end

