-- ==== Sys2Proof/Machine/Dispatch.lean ====
section
/-! DEFINITION. The meaning of each command, one arm per constructor of Instr (R62). -/

namespace Sys2Proof.Machine

/-- A CMD write of the instruction's word, by some host (R62). -/
def exec (i : Instr) (s : State) : Host.Outcome State Fault Refusal :=
  match i with
  | .nop => Sys2Proof.Machine.execNop s
  | .buildTable => Sys2Proof.Machine.execBuildTable s
  | .checksum p => Sys2Proof.Machine.execChecksum p s
  | .invalidateTable => Sys2Proof.Machine.execInvalidateTable s

end Sys2Proof.Machine
end

