-- ==== Sys2Proof/Machine/Bus.lean ====
section
/-! DEFINITION. The moves of the agents (R11): register reads and writes by hosts (R39 to R42), `Dispatch` of a written
command word (R62), WAITIDLE (R68), host loads from and stores to system memory (R11, R54), reset (R120) and engine micro-steps. -/

namespace Sys2Proof.Machine

/-- What a host read of a register returns (R39). It changes no state of the block (R42). -/
def State.regRead (s : State) : Reg → Word
  | .cmd => 0#32
  | .status => s.statusWord
  | .bufAddr => s.bufAddr
  | .bufLen => s.bufLen
  | .result => s.result
  | .reserved => 0#32

/-- `Dispatch(w)` (R62): the written word is decoded and run; an illegal word is ILLEGAL_COMMAND (R63). -/
def dispatchWord (w : Word) (s : State) : Host.Outcome State Fault Refusal :=
  match decode w with
  | .ok i => exec i s
  | .error _ => illegalCommand s

/-- A host write of a register (R40). -/
def regWrite (r : Reg) (w : Word) (s : State) : Host.Outcome State Fault Refusal :=
  match r with
  | .cmd => dispatchWord w s
  | .status => .next s
  | .bufAddr => .next { s with bufAddr := truncAddr s.platform w }
  | .bufLen => .next { s with bufLen := w }
  | .result => .next s
  | .reserved => .next s

/-- One host access (R39, R40), refused where the model gives it no meaning (R41). -/
def performAccess (a : HostAccess) (s : State) : Host.Outcome State Fault Refusal :=
  match selectReg s.platform a with
  | .error r => .refused r
  | .ok r =>
    match a.kind with
    | .read => .next (s.answer a.host (s.regRead r))
    | .write w => regWrite r w s
    | .atomic => .refused .mmioAtomic

/-- One round of WAITIDLE (R68): the host reads STATUS; while bit 0 (BUSY) of it is 1, the engine moves (R131) and the host
reads again. -/
def pollStatus (host : Nat) (s : State) : State :=
  let v := s.statusWord
  if v.getLsbD 0 then { s.answer host v with agenda := .engine :: .waitIdle host :: s.agenda }
  else s.answer host v

/-- One move of an agent (R11). -/
def perform (m : Move) (s : State) : Host.Outcome State Fault Refusal :=
  match m with
  | .engine => engineStep s
  | .access a => performAccess a s
  | .load host a => loadByte host a s
  | .store a b => storeByte a b s
  | .waitIdle host => .next (pollStatus host s)
  | .reset => .next s.resetBlock

/-- The next move: the first of the agenda, or, when no agent outside the engine has a move to make, the engine's
(R11, R131). -/
def takeMove (s : State) : Host.Outcome State Fault Refusal :=
  match s.agenda with
  | [] => engineStep s
  | m :: rest => perform m { s with agenda := rest }

/-- The access by which a host writes a command word to CMD (R16, R40). -/
def cmdWrite (p : Platform) (host : Nat) (w : Word) : Move :=
  .access { host := host, addr := p.crcBase, bits := 32, kind := .write w }

end Sys2Proof.Machine
end

