-- ==== Sys2Proof/Machine/Step.lean ====
section
/-! DEFINITION. The step: a state that records a fault or a refusal takes no further step (R119, R41); any other makes
its next move (R11). -/

namespace Sys2Proof.Machine

/-- One step of the machine (R11, R12). -/
def step (s : State) : Host.Outcome State Fault Refusal :=
  match s.fault, s.refusal with
  | some f, _ => .fault f
  | none, some r => .refused r
  | none, none => takeMove s

/-- The same step with its outcome recorded in the state (R12, R36, R119): a fault or a refusal is written down and nothing
else changes. -/
def State.record (s : State) : State :=
  match step s with
  | .next t => t
  | .fault f => { s with fault := some f }
  | .refused r => { s with refusal := some r }

/-- `s` with a host's CMD write of the table word as the next move: the block fetches nothing (R56), so this is where its
next command comes from (log 6). -/
def State.withFetchWord (s : State) (nbits w : Nat) : State :=
  { s with agenda := cmdWrite s.platform 0 (BitVec.ofNat 32 (w % 2 ^ nbits)) :: s.agenda }

end Sys2Proof.Machine
end

