-- ==== Sys2Proof/Machine/HostProgram.lean ====
section
/-! DEFINITION. The host-program syntax of the spec (R66) and its two pseudo-instructions (R67, R68), each written out as
the moves it stands for. -/

namespace Sys2Proof.Machine

/-- One line of a host program (R66 to R68). -/
inductive HostOp where
  /-- `WR <reg>, <imm>` (R66). -/
  | wr (r : Reg) (imm : Word)
  /-- `RD <reg>` (R66). -/
  | rd (r : Reg)
  /-- `CMD <mnemonic>` (R66); `CHECKSUM.A` is the form of CHECKSUM with P = 0. -/
  | cmd (i : Instr)
  /-- `CMD.RAW <imm>` (R66). -/
  | cmdRaw (imm : Word)
  /-- `WAITIDLE` (R68). -/
  | waitIdle
  /-- `CRC32 <addr>, <len>` (R67). -/
  | crc32 (addr len : Word)
  /-- `CRC32.A <len>` (R67). -/
  | crc32Absent (len : Word)
deriving DecidableEq, Repr

/-- The offset of a register in the block (R15); a reserved word is reached at its first offset. -/
def regOffset : Reg → Nat
  | .cmd => 0x00
  | .status => 0x04
  | .bufAddr => 0x08
  | .bufLen => 0x0C
  | .result => 0x10
  | .reserved => 0x14

/-- A 32-bit access to a register by a host (R38, R66). -/
def regAccess (p : Platform) (host : Nat) (r : Reg) (kind : AccessKind) : Move :=
  .access { host := host, addr := p.crcBase + regOffset r, bits := 32, kind := kind }

/-- The moves a line of a host program stands for (R66 to R68). -/
def HostOp.moves (p : Platform) (host : Nat) : HostOp → List Move
  | .wr r imm => [regAccess p host r (.write imm)]
  | .rd r => [regAccess p host r .read]
  | .cmd i => [regAccess p host .cmd (.write (encode i))]
  | .cmdRaw imm => [regAccess p host .cmd (.write imm)]
  | .waitIdle => [.waitIdle host]
  | .crc32 addr len =>
    [regAccess p host .bufAddr (.write addr), regAccess p host .bufLen (.write len),
      regAccess p host .cmd (.write (encode (.checksum true))), .waitIdle host, regAccess p host .result .read]
  | .crc32Absent len =>
    [regAccess p host .bufLen (.write len), regAccess p host .cmd (.write (encode (.checksum false))), .waitIdle host,
      regAccess p host .result .read]

/-- The state with a host program as the moves to come, before those already there (R66). -/
def State.load (host : Nat) (program : List HostOp) (s : State) : State :=
  { s with agenda := program.flatMap (HostOp.moves s.platform host) ++ s.agenda }

end Sys2Proof.Machine
end

