-- ==== Sys2Proof/Safety.lean ====
section
/-! DEFINITION. What claims are said in: a run of steps, the launch premises (R134), the end of an operation and of a run (R135), and
the invariant of the block's state. -/

namespace Sys2Proof.Machine

/-- `n` steps, stopping at the first fault or refusal (R12). -/
def steps : Nat → State → Host.Outcome State Fault Refusal
  | 0, s => .next s
  | n + 1, s =>
    match step s with
    | .next t => steps n t
    | .fault f => .fault f
    | .refused r => .refused r

/-- `n` ByteSteps one after the other, whatever `rem` would choose (R91). -/
def byteSteps : Nat → State → Host.Outcome State Fault Refusal
  | 0, s => .next s
  | n + 1, s =>
    match byteStep s with
    | .next t => byteSteps n t
    | .fault f => .fault f
    | .refused r => .refused r

/-! ### Which move comes next -/

/-- The next move is `m`. -/
def State.NextMove (s : State) (m : Move) : Prop := ∃ rest, s.agenda = m :: rest

/-- The next move is the engine's. -/
def State.EngineMoves (s : State) : Prop := s.agenda = [] ∨ s.NextMove .engine

/-- Nobody but the engine has a move to make: what follows is the operation alone. -/
def State.EngineAlone (s : State) : Prop := s.agenda = []

/-- The next move is the host access `a`, which writes `w` to register `r` (R40). -/
def State.HostWrites (s : State) (a : HostAccess) (r : Reg) (w : Word) : Prop :=
  s.NextMove (.access a) ∧ a.kind = .write w ∧ selectReg s.platform a = .ok r

/-- The next move is a host's write of command word `w` to CMD (R16, R40). -/
def State.NextCommand (s : State) (w : Word) : Prop := ∃ a, s.HostWrites a .cmd w

/-- The next move is a host's read of STATUS, alone or in a WAITIDLE, and it returns BUSY = 0 (R39, R68). -/
def State.ReadsIdle (s : State) : Prop :=
  s.busy = false ∧ ((∃ h, s.NextMove (.waitIdle h)) ∨
    ∃ a, s.NextMove (.access a) ∧ a.kind = .read ∧ selectReg s.platform a = .ok .status)

/-- A CHECKSUM is in progress: in phase CRC, or in a build chained to a checksum (R83). -/
def State.ChecksumRunning (s : State) : Prop := s.phase = .crc ∨ ∃ i, s.phase = .build i .checksum

/-! ### Launch premises (R134) -/

/-- `no_fault`: no model fault and no refusal is recorded (R134). -/
def State.NoFault (s : State) : Prop := s.fault = none ∧ s.refusal = none

/-- `reset_state`: the block is in the state of R121 (R134). -/
def State.InReset (s : State) : Prop := s.resetBlock = s

/-- `idle`: nothing is in flight (R134). -/
def State.Idle (s : State) : Prop := s.phase = .idle

/-- `buffer_admitted(a, n)`: the memory admits every byte of `[a, a + n)`, and the range does not pass the top of the
address space (R134). The bytes are `b 0 .. b (n-1)`. -/
def State.HoldsBuffer (s : State) (a n : Nat) (b : Nat → Byte) : Prop :=
  a + n ≤ s.memSize ∧ ∀ k < n, s.mem.read (a + k) = some (b k)

/-- `buffer_stable(a, n)` of the run from `s`: wherever in the run a CHECKSUM that latched `[a, a + n)` has BUSY = 1, the next
move is no store into that range (R134). Stores before its CMD write and after its end are free. -/
def State.BufferStable (a n : Nat) (s : State) : Prop :=
  ∀ (k : Nat) (t : State) (x : Nat) (b : Byte), steps k s = .next t → t.ChecksumRunning → t.addr0 = some a →
    t.len0 = some n → t.NextMove (.store x b) → ¬ (a ≤ x ∧ x < a + n)

/-- In the run from `t`, the first `m` moves read no STATUS with BUSY = 0. -/
def State.NotSeenIdle (t : State) (m : Nat) : Prop := ∀ l < m, ∀ q, steps l t = .next q → ¬ q.ReadsIdle

/-- `hosts_serialised` of the run from `s`: from each CMD write to the next STATUS read with BUSY = 0, by whichever host, no
host but the one that wrote CMD writes a register (R134, R97; log 17). -/
def State.HostsSerialised (s : State) : Prop :=
  ∀ (i : Nat) (t : State) (c : HostAccess) (w : Word) (m : Nat) (u : State) (a : HostAccess) (r : Reg) (v : Word),
    steps i s = .next t → t.HostWrites c .cmd w → steps m t = .next u → t.NotSeenIdle m → u.HostWrites a r v →
    a.host = c.host

/-! ### The end of an operation and of a run (R135) -/

/-- An operation has ended: phase IDLE with DONE = 1, and no fault is recorded, since a faulted state is never an end
(R135). -/
def State.Ended (s : State) : Prop := s.phase = .idle ∧ s.done = true ∧ s.fault = none

/-- The move is an access of a host program of this host (R66 to R68). -/
def Move.isProgramAccess (host : Nat) : Move → Bool
  | .engine => false
  | .access a => a.host == host
  | .load _ _ => false
  | .store _ _ => false
  | .waitIdle h => h == host
  | .reset => false

/-- Every access of the host's program has been performed. -/
def State.ProgramDone (host : Nat) (s : State) : Prop := ∀ m ∈ s.agenda, m.isProgramAccess host = false

/-- The run of the host's program from `s` ends at its `n`-th step, in `t`: the last access has been performed there and not
before, and no fault is recorded (R135). That the block is idle there is no part of this: a claim about the end state says
`t.Ended` as well. -/
def State.ProgramEndsAt (host n : Nat) (s t : State) : Prop :=
  steps n s = .next t ∧ t.ProgramDone host ∧ t.fault = none ∧
    ∀ m < n, ∀ u, steps m s = .next u → ¬ u.ProgramDone host

/-! ### The invariant of the block -/

/-- What every step keeps true of the state (R19, R20, R22, R26 to R31, R43). -/
structure State.Inv (s : State) : Prop where
  /-- ERR holds one of the codes 0 to 3 (R19, U6). -/
  errLegal : s.err.toNat ≤ 3
  /-- The platform's parameters are legal (R7, R38). -/
  platformWf : s.platform.wf = true
  /-- BUF_ADDR has no bit at or above ADDR_W (R22). -/
  bufAddrFits : s.bufAddr.toNat < s.memSize
  /-- System memory is in canonical form (R43). -/
  memWf : s.mem.wf s.platform.addrW = true
  /-- The table is in canonical form (R26). -/
  tableWf : s.table.wf = true
  /-- DONE = 0 while an operation runs (R18). -/
  doneClear : s.busy = true → s.done = false
  /-- TABLE_VALID = 1 says that the whole table holds the values of R71 (R20). -/
  tableFull : s.tableValid = true → ∀ t < 16, ∀ i, s.table.entry t i = some (tableValue t i)
  /-- With no table and no build in progress, no entry holds a value (R27). -/
  tableEmpty : s.tableValid = false → (∀ i c, s.phase ≠ .build i c) → s.table = []
  /-- A build in progress has TABLE_VALID = 0 and has written exactly the indices below its own (R27, R74). -/
  tablePartial : ∀ i c, s.phase = .build i c → s.tableValid = false ∧
    ∀ t < 16, ∀ j : Byte, s.table.entry t j = if j.toNat < i.toNat then some (tableValue t j) else none
  /-- The CRC phase has a table (R83). -/
  crcHasTable : s.phase = .crc → s.tableValid = true
  /-- A running CHECKSUM has latched its range, and `ptr` and `rem` split it (R30, R31, R84). -/
  latched : s.ChecksumRunning → ∃ a len p n c, s.addr0 = some a ∧ s.len0 = some len ∧ s.ptr = some p ∧ s.rem = some n ∧
    s.crc = some c ∧ a ≤ p ∧ p + n = a + len ∧ a < s.memSize ∧ len < 2 ^ 32

/-- While a CHECKSUM runs, the accumulator is the byte-at-a-time CRC of the bytes of the latched range that have been
taken in, as memory holds them now (R54, R90, R91). -/
def State.CrcTracksMemory (s : State) : Prop :=
  s.ChecksumRunning → ∃ a n, ∃ b : Nat → Byte, s.addr0 = some a ∧ s.ptr = some (a + n) ∧
    (∀ k < n, s.mem.read (a + k) = some (b k)) ∧ s.crc = some (bytewiseFrom crcInit b n)

end Sys2Proof.Machine
end

