-- ==== Sys2Proof/Certificates/Slice0/Obligations.lean ====
section
/-! DEFINITION. The statements for the provers, in the order of the spec's files. Each docstring names the rule it
formalises. A statement that rests on a choice of the model says so and names the log entry. -/

open Sys2Proof Sys2Proof.Machine

/-! ### Encoding (30_encoding.md) -/

/-- Words written out from R57 to R61 and the examples of R63, with the names the model rejects the illegal ones by. -/
def Obligations.SampleWordsDecode : Prop :=
  decode 0x00000000#32 = .ok .nop ∧ decode 0x00000001#32 = .ok .buildTable ∧
  decode 0x00000002#32 = .ok (.checksum false) ∧ decode 0x00000102#32 = .ok (.checksum true) ∧
  decode 0x00000003#32 = .ok .invalidateTable ∧
  decode 0x00000004#32 = .error .reservedOp ∧ decode 0x00000101#32 = .error .reservedP ∧
  decode 0x80000002#32 = .error .reservedBits ∧ decode 0x000000FF#32 = .error .reservedOp

/-- R61: the rows by match and mask, the five legal words, and no word of two rows. -/
def Obligations.ExactlyFiveWordsAreLegal : Prop :=
  ∀ w : Word,
    (decode w = .ok .nop ↔ w &&& 0xFFFFFFFF#32 = 0x00000000#32) ∧
    (decode w = .ok .buildTable ↔ w &&& 0xFFFFFFFF#32 = 0x00000001#32) ∧
    (∀ p, decode w = .ok (.checksum p) ↔ w &&& 0xFFFFFEFF#32 = 0x00000002#32 ∧ w.getLsbD 8 = p) ∧
    (decode w = .ok .invalidateTable ↔ w &&& 0xFFFFFFFF#32 = 0x00000003#32) ∧
    ((∃ i, decode w = .ok i) ↔ w = 0x00000000#32 ∨ w = 0x00000001#32 ∨ w = 0x00000002#32 ∨ w = 0x00000102#32 ∨
      w = 0x00000003#32)

/-- The decoder and the encoder agree, in both directions, for every instruction with P at both values: no bit of a word
is dropped. -/
def Obligations.DecodeAndEncodeAgree : Prop :=
  (∀ i : Instr, i.wf = true ∧ decode (encode i) = .ok i ∧ decodeTableWord 32 (encode i).toNat = some i) ∧
  (∀ (w : Word) (i : Instr), decode w = .ok i → encode i = w)

/-- R58 and R60: OP selects the command and its values 4 to 255 are illegal; a word with an RSV bit set is illegal whatever
its OP. That such a word is rejected as `reservedBits`, before OP and P are looked at, is the model's choice of a name
(log 14); the spec says only that the word is illegal. -/
def Obligations.ReservedFieldsAreIllegal : Prop :=
  ∀ w : Word,
    (∀ i, decode w = .ok i → w.extractLsb' 0 8 = i.fields.op) ∧
    (Instr.nop.fields.op = 0x00#8 ∧ Instr.buildTable.fields.op = 0x01#8 ∧ (∀ p, (Instr.checksum p).fields.op = 0x02#8) ∧
      Instr.invalidateTable.fields.op = 0x03#8) ∧
    (3 < (w.extractLsb' 0 8).toNat → ∃ e, decode w = .error e) ∧
    (w.extractLsb' 9 23 ≠ 0#23 → decode w = .error .reservedBits)

/-- R62: `Dispatch`, row by row. -/
def Obligations.DispatchFollowsTheRows : Prop :=
  ∀ (w : Word) (s : State),
    (s.phase ≠ .idle → dispatchWord w s = .next { s with err := 3#3 }) ∧
    (s.phase = .idle → ∀ a : State, a = { s with done := false, err := 0#3 } →
      (w = 0x00000000#32 → dispatchWord w s = .next { a with done := true }) ∧
      (w = 0x00000001#32 → dispatchWord w s =
        .next (if a.tableValid then { a with done := true } else { a with phase := .build 0#8 .none })) ∧
      (w &&& 0xFFFFFEFF#32 = 0x00000002#32 → dispatchWord w s = .next (checksumBody (w.getLsbD 8) a)) ∧
      (w = 0x00000003#32 → dispatchWord w s = .next { a with tableValid := false, table := [], done := true }) ∧
      (w ≠ 0x00000000#32 → w ≠ 0x00000001#32 → w &&& 0xFFFFFEFF#32 ≠ 0x00000002#32 → w ≠ 0x00000003#32 →
        dispatchWord w s = .next { a with err := 2#3, done := true }))

/-- R63: an illegal word written to the idle engine changes ERR and DONE and nothing else; the four examples are such
words. -/
def Obligations.IllegalWordIsReported : Prop :=
  (∀ (w : Word) (s : State), s.phase = .idle → (∀ i, decode w ≠ .ok i) →
    dispatchWord w s = .next { s with err := 2#3, done := true }) ∧
  ∀ w ∈ [0x00000004#32, 0x00000101#32, 0x80000002#32, 0x000000FF#32], ∀ i, decode w ≠ .ok i

/-! ### Steps and commands -/

/-- A step is the next move of the agenda, or the engine's where no other agent has one (R11). The agenda is the model's
own form of the interleaving (log 1). -/
def Obligations.StepTakesTheNextMove : Prop :=
  ∀ s : State, s.NoFault →
    (s.agenda = [] → step s = engineStep s) ∧
    (∀ m rest, s.agenda = m :: rest → step s = perform m { s with agenda := rest })

/-- A host's CMD write runs the instruction its word decodes to, and the step adds nothing around it but taking the move off
the agenda (log 1); the word `withFetchWord` places is run so. -/
def Obligations.StepRunsTheWrittenCommand : Prop :=
  ∀ (s : State) (w : Word) (i : Instr), s.NoFault → decode w = .ok i →
    (∀ h rest, s.agenda = cmdWrite s.platform h w :: rest → step s = exec i { s with agenda := rest }) ∧
    step (s.withFetchWord 32 w.toNat) = exec i s

/-- R109: one CMD write never faults and reports exactly one condition, in the order BUSY, illegal word, absent buffer; an
absent buffer starts no build. -/
def Obligations.OneConditionIsReported : Prop :=
  ∀ (w : Word) (s : State), ∃ t, dispatchWord w s = .next t ∧
    (s.phase ≠ .idle → t.err = 3#3) ∧
    (s.phase = .idle → (∀ i, decode w ≠ .ok i) → t.err = 2#3) ∧
    (s.phase = .idle → decode w = .ok (.checksum false) → t.err = 1#3 ∧ t.phase = .idle ∧ t.tableValid = s.tableValid) ∧
    (s.phase = .idle → ∀ i, decode w = .ok i → i ≠ .checksum false → t.err = 0#3)

/-- R100: NOP. -/
def Obligations.NopOnlyClearsStatus : Prop :=
  (∀ s : State, s.phase = .idle → exec .nop s = .next { s with done := true, err := 0#3 }) ∧
  (∀ s : State, s.phase ≠ .idle → exec .nop s = .next { s with err := 3#3 }) ∧
  (∀ w : Word, decode w = .ok .nop ↔ w = 0x00000000#32) ∧
  (∀ (w : Word) (s : State), s.phase = .idle → w.extractLsb' 0 8 = 0#8 → w.getLsbD 8 = true ∨ w.extractLsb' 9 23 ≠ 0#23 →
    dispatchWord w s = .next { s with err := 2#3, done := true }) ∧
  (∀ s : State, s.phase = .idle → s.statusWord = 0x00000016#32 →
    ∃ t, exec .nop s = .next t ∧ t.statusWord = 0x00000006#32)

/-- BUILD_TABLE (R73): at once on a finished table, the start of a build otherwise, and dropped while BUSY = 1. -/
def Obligations.BuildTableStartsOrFinishes : Prop :=
  (∀ s : State, s.phase = .idle → s.tableValid = true →
    exec .buildTable s = .next { s with done := true, err := 0#3 }) ∧
  (∀ s : State, s.phase = .idle → s.tableValid = false →
    exec .buildTable s = .next { s with done := false, err := 0#3, phase := .build 0#8 .none }) ∧
  (∀ s : State, s.phase ≠ .idle → exec .buildTable s = .next { s with err := 3#3 }) ∧
  ∃ t, exec .buildTable State.reset = .next t ∧ t.statusWord = 0x00000001#32

/-- INVALIDATE_TABLE (R77): TABLE_VALID falls and no entry holds a value, and it is dropped while BUSY = 1. -/
def Obligations.InvalidateTableEmptiesTheTable : Prop :=
  (∀ s : State, s.phase = .idle → ∃ t, exec .invalidateTable s = .next t ∧
    (∀ k i, t.table.entry k i = none) ∧
    t = { s with done := true, err := 0#3, tableValid := false, table := t.table }) ∧
  (∀ s : State, s.phase ≠ .idle → exec .invalidateTable s = .next { s with err := 3#3 }) ∧
  (∀ s : State, s.phase = .idle → s.statusWord = 0x00000006#32 →
    ∃ t, exec .invalidateTable s = .next t ∧ t.statusWord = 0x00000002#32)

/-- R82 and R94: a CHECKSUM with P = 0 on the idle engine reports INVALID_ARGUMENT, whatever BUF_LEN holds, and changes
nothing else; with the example of R82. -/
def Obligations.AbsentBufferIsReported : Prop :=
  (∀ s : State, s.phase = .idle → exec (.checksum false) s = .next { s with err := 1#3, done := true }) ∧
  ∃ t, steps 2 (State.reset.load 0 [.wr .bufLen 5#32, .cmd (.checksum false)]) = .next t ∧
    t.statusWord = 0x00000012#32 ∧ t.result = 0x00000000#32

/-- CHECKSUM with P = 1 (R81): it enters phase CRC, through a build where there is no table (R83). -/
def Obligations.ChecksumStarts : Prop :=
  ∀ s : State,
    (s.phase = .idle → exec (.checksum true) s = .next
      { s with
        done := false, err := 0#3, ptr := some s.bufAddr.toNat, addr0 := some s.bufAddr.toNat,
        len0 := some s.bufLen.toNat, rem := some s.bufLen.toNat, crc := some 0xFFFFFFFF#32,
        phase := if s.tableValid then .crc else .build 0#8 .checksum }) ∧
    (s.phase ≠ .idle → ∀ p, exec (.checksum p) s = .next { s with err := 3#3 })

/-- R84: the operands are latched in the accepting step, and no engine step of the operation reads BUF_ADDR or BUF_LEN
again. -/
def Obligations.OperandsAreLatchedAtAcceptance : Prop :=
  (∀ s : State, s.phase = .idle → ∃ t, exec (.checksum true) s = .next t ∧ t.ptr = some s.bufAddr.toNat ∧
    t.addr0 = some s.bufAddr.toNat ∧ t.len0 = some s.bufLen.toNat ∧ t.rem = some s.bufLen.toNat ∧
    t.crc = some 0xFFFFFFFF#32) ∧
  (∀ (s : State) (x y : Word),
    (∀ t, engineStep s = .next t →
      engineStep { s with bufAddr := x, bufLen := y } = .next { t with bufAddr := x, bufLen := y }) ∧
    (∀ f, engineStep s = .fault f → engineStep { s with bufAddr := x, bufLen := y } = .fault f))

/-- The frame of the four commands (R82, R100, R73, R77, R110): no command changes BUF_ADDR, BUF_LEN, RESULT, memory or
what surrounds the block; only INVALIDATE_TABLE changes the table and TABLE_VALID; only a CHECKSUM with P = 1 changes the
engine's registers; and a command that is dropped changes ERR alone. -/
def Obligations.CommandsKeepTheRest : Prop :=
  ∀ (i : Instr) (s t : State), exec i s = .next t →
    t.bufAddr = s.bufAddr ∧ t.bufLen = s.bufLen ∧ t.result = s.result ∧ t.fault = s.fault ∧ t.refusal = s.refusal ∧
    t.platform = s.platform ∧ t.agenda = s.agenda ∧ t.hostAnswer = s.hostAnswer ∧ t.hostLoads = s.hostLoads ∧
    (∀ a, t.mem.read a = s.mem.read a) ∧
    (i ≠ .invalidateTable → t.tableValid = s.tableValid ∧ ∀ k j, t.table.entry k j = s.table.entry k j) ∧
    (i ≠ .checksum true → t.crc = s.crc ∧ t.ptr = s.ptr ∧ t.addr0 = s.addr0 ∧ t.len0 = s.len0 ∧ t.rem = s.rem) ∧
    (i = .nop ∨ i = .invalidateTable ∨ i = .checksum false → t.phase = s.phase) ∧
    (s.phase ≠ .idle → t = { s with err := t.err })

/-! ### The register block (10_state.md, 20_memory.md) -/

/-- R39: what a host read of each offset returns; the read changes no state of the block. The returned word stands in
`hostAnswer`, the model's own field for it (log 11). -/
def Obligations.HostReadsReturn : Prop :=
  (∀ (s : State) (h : Nat),
    performAccess ⟨h, s.platform.crcBase + 0x00, 32, .read⟩ s = .next { s with hostAnswer := some ⟨h, 0#32⟩ } ∧
    performAccess ⟨h, s.platform.crcBase + 0x04, 32, .read⟩ s = .next { s with hostAnswer := some ⟨h,
      (s.err ++ 0#1 ++ BitVec.ofBool s.tableValid ++ BitVec.ofBool s.done ++ BitVec.ofBool s.busy).setWidth 32⟩ } ∧
    performAccess ⟨h, s.platform.crcBase + 0x08, 32, .read⟩ s = .next { s with hostAnswer := some ⟨h, s.bufAddr⟩ } ∧
    performAccess ⟨h, s.platform.crcBase + 0x0C, 32, .read⟩ s = .next { s with hostAnswer := some ⟨h, s.bufLen⟩ } ∧
    performAccess ⟨h, s.platform.crcBase + 0x10, 32, .read⟩ s = .next { s with hostAnswer := some ⟨h, s.result⟩ } ∧
    ∀ o ∈ [0x14, 0x18, 0x1C],
      performAccess ⟨h, s.platform.crcBase + o, 32, .read⟩ s = .next { s with hostAnswer := some ⟨h, 0#32⟩ }) ∧
  State.reset.statusWord = 0x00000000#32

/-- R40: what a host write of each offset does; writes of BUF_ADDR and BUF_LEN take effect in every phase and a running
operation does not see them; with the rule's example. -/
def Obligations.HostWritesDo : Prop :=
  (∀ (s : State) (h : Nat) (w : Word),
    performAccess ⟨h, s.platform.crcBase + 0x00, 32, .write w⟩ s = dispatchWord w s ∧
    performAccess ⟨h, s.platform.crcBase + 0x04, 32, .write w⟩ s = .next s ∧
    performAccess ⟨h, s.platform.crcBase + 0x08, 32, .write w⟩ s =
      .next { s with bufAddr := BitVec.ofNat 32 (w.toNat % 2 ^ s.platform.addrW) } ∧
    performAccess ⟨h, s.platform.crcBase + 0x0C, 32, .write w⟩ s = .next { s with bufLen := w } ∧
    performAccess ⟨h, s.platform.crcBase + 0x10, 32, .write w⟩ s = .next s ∧
    (∀ o ∈ [0x14, 0x18, 0x1C], performAccess ⟨h, s.platform.crcBase + o, 32, .write w⟩ s = .next s)) ∧
  (∀ (s t : State) (x y : Word), engineStep s = .next t →
    engineStep { s with bufAddr := x, bufLen := y } = .next { t with bufAddr := x, bufLen := y }) ∧
  (∀ (s : State) (h : Nat), s.platform.addrW = 32 → ∃ t,
    performAccess ⟨h, s.platform.crcBase + 0x08, 32, .write 0x00001000#32⟩ s = .next t ∧
    performAccess ⟨h, s.platform.crcBase + 0x08, 32, .read⟩ t = .next { t with hostAnswer := some ⟨h, 0x00001000#32⟩ })

/-- R21: the bits of the STATUS word, and a write of STATUS is ignored. -/
def Obligations.StatusWordLayout : Prop :=
  ∀ s : State, s.regRead .status = s.statusWord ∧
    s.statusWord.getLsbD 0 = s.busy ∧ s.statusWord.getLsbD 1 = s.done ∧ s.statusWord.getLsbD 2 = s.tableValid ∧
    s.statusWord.getLsbD 3 = false ∧ s.statusWord.extractLsb' 4 3 = s.err ∧
    (∀ k, 7 ≤ k → s.statusWord.getLsbD k = false) ∧ (∀ w, regWrite .status w s = .next s) ∧
    (s.phase = .idle → s.tableValid = true → s.done = true → s.err = 0#3 → s.statusWord = 0x00000006#32)

/-- R25: the reserved offsets read as 0, ignore writes, and have no effect. -/
def Obligations.ReservedOffsetsDoNothing : Prop :=
  ∀ o ∈ [0x14, 0x18, 0x1C], ∀ (s : State) (h : Nat) (w : Word),
    performAccess ⟨h, s.platform.crcBase + o, 32, .read⟩ s = .next { s with hostAnswer := some ⟨h, 0x00000000#32⟩ } ∧
    performAccess ⟨h, s.platform.crcBase + o, 32, .write w⟩ s = .next s

/-- BUF_ADDR (R22): a read after a write gives the low ADDR_W bits of the written word, every bit at and above ADDR_W reads
0, and with ADDR_W = 32 it is the whole word. -/
def Obligations.BufAddrKeepsItsWidth : Prop :=
  ∀ (s : State) (h h' : Nat) (w : Word), ∃ t,
    performAccess ⟨h, s.platform.crcBase + 0x08, 32, .write w⟩ s = .next t ∧
    performAccess ⟨h', t.platform.crcBase + 0x08, 32, .read⟩ t = .next { t with hostAnswer := some ⟨h', t.bufAddr⟩ } ∧
    (∀ k, t.bufAddr.getLsbD k = (decide (k < s.platform.addrW) && w.getLsbD k)) ∧
    (s.platform.addrW = 32 → t.bufAddr = w) ∧ (t.phase = s.phase ∧ t.ptr = s.ptr ∧ t.rem = s.rem ∧ t.crc = s.crc)

/-- R41: an access inside the block that breaks one of the three conditions is refused by that condition's name, one that
breaks several by one of the names, one that breaks none is not refused, and a refusal is recorded for the whole state. That the
record changes nothing else and that the refused state stays refused is the reading of log 13; which of the names answers an
access that breaks several is left open here (log 8). -/
def Obligations.MalformedAccessesAreRefused : Prop :=
  (∀ (s : State) (a : HostAccess), s.platform.crcBase ≤ a.addr → a.addr < s.platform.crcBase + 32 →
    (a.bits ≠ 32 → (a.addr - s.platform.crcBase) % 4 = 0 → a.kind ≠ .atomic → performAccess a s = .refused .mmioWidth) ∧
    (a.bits = 32 → (a.addr - s.platform.crcBase) % 4 ≠ 0 → a.kind ≠ .atomic →
      performAccess a s = .refused .mmioMisaligned) ∧
    (a.bits = 32 → (a.addr - s.platform.crcBase) % 4 = 0 → a.kind = .atomic → performAccess a s = .refused .mmioAtomic) ∧
    (a.bits ≠ 32 ∨ (a.addr - s.platform.crcBase) % 4 ≠ 0 ∨ a.kind = .atomic →
      ∃ r, performAccess a s = .refused r ∧ (r = .mmioWidth ∨ r = .mmioMisaligned ∨ r = .mmioAtomic)) ∧
    (a.bits = 32 → (a.addr - s.platform.crcBase) % 4 = 0 → a.kind ≠ .atomic → ∃ t, performAccess a s = .next t)) ∧
  (∀ (s : State) (r : Refusal), step s = .refused r → s.fault = none → s.refusal = none →
    s.record = { s with refusal := some r } ∧ step s.record = .refused r)

/-- R42: reads change nothing of the block, every access but a CMD write is idempotent, and a CMD write is not. -/
def Obligations.ReadsHaveNoSideEffects : Prop :=
  (∀ (a : HostAccess) (s t : State), a.kind = .read → performAccess a s = .next t →
    t = { s with hostAnswer := t.hostAnswer }) ∧
  (∀ (a : HostAccess) (s t : State), selectReg s.platform a ≠ .ok .cmd → performAccess a s = .next t →
    performAccess a t = .next t) ∧
  (∃ (s t u : State) (w : Word), dispatchWord w s = .next t ∧ dispatchWord w t = .next u ∧ u ≠ t)

/-- No host is told from another (R116): the same access by another host has the same effect on the block. -/
def Obligations.HostsAreAlike : Prop :=
  ∀ (a : HostAccess) (h : Nat) (s t : State), performAccess a s = .next t →
    ∃ u, performAccess { a with host := h } s = .next u ∧ { u with hostAnswer := t.hostAnswer } = t ∧
      (∀ w, a.kind = .write w → u = t)

/-- One round of WAITIDLE (R68): the host reads STATUS; it goes on polling while bit 0 of the word it got is 1, and is done
when it is 0. That exactly one engine micro-step stands between two polls is the model's choice (log 9). -/
def Obligations.WaitIdlePollsUntilIdle : Prop :=
  ∀ (s : State) (h : Nat) (rest : List Move), s.NoFault → s.agenda = .waitIdle h :: rest → ∃ t, step s = .next t ∧
    t.hostAnswer = some ⟨h, s.statusWord⟩ ∧
    (s.phase ≠ .idle → t = { s with hostAnswer := t.hostAnswer, agenda := .engine :: .waitIdle h :: rest }) ∧
    (s.phase = .idle → t = { s with hostAnswer := t.hostAnswer, agenda := rest })

/-! ### System memory (20_memory.md) -/

/-- The engine never writes system memory (R3): only another agent's store changes it. That the stored byte is from then on
one the memory admits, and that the reset move leaves memory alone, is the model's choice, from R52 and R3 (log 2). -/
def Obligations.OnlyStoresChangeMemory : Prop :=
  ∀ s t : State, step s = .next t → t.mem ≠ s.mem →
    ∃ a b, s.NextMove (.store a b) ∧ t.mem.read a = some b ∧ ∀ x, x ≠ a → t.mem.read x = s.mem.read x

/-- R54: a store by another agent into the latched range of a running CHECKSUM faults. -/
def Obligations.StoreIntoTheRangeFaults : Prop :=
  ∀ (s : State) (x : Nat) (b : Byte) (a len : Nat), s.ChecksumRunning → s.addr0 = some a → s.len0 = some len →
    a ≤ x → x < a + len → x < s.memSize →
    storeByte x b s = .fault (.hazardBufferWrite x) ∧
    (s.NoFault → s.NextMove (.store x b) → step s = .fault (.hazardBufferWrite x))

/-- The accesses to system memory that the block's rules leave alone (R11, R52, R54). A store outside the latched range, or with
no CHECKSUM running, is performed: the engine reads the stored byte from then on and every other byte as before. A host's load
answers the byte memory lists and changes no state of the block. That the stored byte is then one the memory admits is the
model's choice (log 2), and so is the form of the load and the free value it answers where memory lists no byte (log 16), of
which nothing is said here. -/
def Obligations.StoreElsewhereAndLoadAreServed : Prop :=
  (∀ (s : State) (x : Nat) (b : Byte), x < s.memSize →
    (¬ s.ChecksumRunning ∨ ∃ a len, s.addr0 = some a ∧ s.len0 = some len ∧ ¬ (a ≤ x ∧ x < a + len)) →
    ∃ t, storeByte x b s = .next t ∧ t = { s with mem := t.mem } ∧ t.memRead x = .ok b ∧
      ∀ y, y ≠ x → t.memRead y = s.memRead y) ∧
  (∀ (s : State) (h x : Nat), x < s.memSize →
    ∃ t, loadByte h x s = .next t ∧ t = { s with hostAnswer := t.hostAnswer, hostLoads := t.hostLoads } ∧
      (∃ w, t.hostAnswer = some ⟨h, w⟩) ∧
      ∀ b, s.mem.read x = some b → t.hostAnswer = some ⟨h, b.setWidth 32⟩ ∧ t.hostLoads = s.hostLoads)

/-- What the launch premises buy (R97, R134). In a run for which `buffer_stable` holds of every range, no step faults
HAZARD_BUFFER_WRITE, and where it holds of one range, no step does while a CHECKSUM of that range runs. In a run for which
`hosts_serialised` holds, from a CMD write until STATUS is read with BUSY = 0 no access by a host other than the one that
wrote CMD changes anything but the answer it gets. Which STATUS read ends that stretch is the reading of log 17. -/
def Obligations.LaunchPremisesProtectTheOperation : Prop :=
  (∀ s : State, s.Inv → s.NoFault → (∀ a n, s.BufferStable a n) →
    ∀ k x, steps k s ≠ .fault (.hazardBufferWrite x)) ∧
  (∀ (s : State) (a n k x : Nat) (t : State), s.BufferStable a n → s.NoFault → steps k s = .next t →
    t.addr0 = some a → t.len0 = some n → step t ≠ .fault (.hazardBufferWrite x)) ∧
  (∀ (s t u v : State) (i m : Nat) (c a : HostAccess) (w : Word), s.HostsSerialised → steps i s = .next t →
    t.HostWrites c .cmd w → steps m t = .next u → t.NotSeenIdle m → u.NextMove (.access a) → a.host ≠ c.host →
    step u = .next v → v = { u with agenda := v.agenda, hostAnswer := v.hostAnswer })

/-- The engine's reads depend on the latched range alone (R49, R96): a memory that agrees on the range gives the same
micro-step, next state or fault. -/
def Obligations.EngineReadsOnlyTheLatchedRange : Prop :=
  ∀ (s : State) (m : Memory) (a len : Nat), s.Inv → s.addr0 = some a → s.len0 = some len →
    (∀ k < len, m.read (a + k) = s.mem.read (a + k)) →
    (∀ t, engineStep s = .next t → engineStep { s with mem := m } = .next { t with mem := m }) ∧
    (∀ f, engineStep s = .fault f → engineStep { s with mem := m } = .fault f)

/-! ### The Table Builder (40_table_builder.md) -/

/-- R69 and R70: `reduce1` and `reduce8`, with their examples. -/
def Obligations.ReductionSteps : Prop :=
  (∀ x : Word, reduce1 x = if x &&& 1#32 ≠ 0#32 then 0xEDB88320#32 ^^^ (x >>> 1) else x >>> 1) ∧
  reduce1 0x00000001#32 = 0xEDB88320#32 ∧ reduce1 0x00000002#32 = 0x00000001#32 ∧ reduce1 0#32 = 0#32 ∧
  (∀ x : Word, reduce8 x = reduce1 (reduce1 (reduce1 (reduce1 (reduce1 (reduce1 (reduce1 (reduce1 x)))))))) ∧
  reduce1 0xEDB88320#32 = 0x76DC4190#32 ∧ reduce1 0x76DC4190#32 = 0x3B6E20C8#32 ∧
  reduce1 0x3B6E20C8#32 = 0x1DB71064#32 ∧ reduce1 0x1DB71064#32 = 0x0EDB8832#32 ∧
  reduce1 0x0EDB8832#32 = 0x076DC419#32 ∧ reduce1 0x076DC419#32 = 0xEE0E612C#32 ∧
  reduce1 0xEE0E612C#32 = 0x77073096#32 ∧ reduce8 0x00000001#32 = 0x77073096#32

/-- R79: linearity of the reduction and of every slice, the zero entry, and the XOR of all entries of a slice. -/
def Obligations.ReductionIsLinear : Prop :=
  (∀ x y : Word, reduce1 (x ^^^ y) = reduce1 x ^^^ reduce1 y) ∧
  (∀ (t : Nat) (i j : Byte), tableValue t (i ^^^ j) = tableValue t i ^^^ tableValue t j) ∧
  (∀ t : Nat, tableValue t 0#8 = 0#32) ∧
  (∀ t : Nat, (List.range 256).foldl (fun acc i => acc ^^^ tableValue t (BitVec.ofNat 8 i)) 0#32 = 0#32)

/-- R78: each slice is the slice before it passed through one more zero byte. -/
def Obligations.SliceRecurrence : Prop :=
  ∀ (t : Nat) (i : Byte), 1 ≤ t →
    tableValue t i = (tableValue (t - 1) i >>> 8) ^^^ tableValue 0 ((tableValue (t - 1) i).setWidth 8)

/-- R74: the build micro-step writes the 16 entries of its index, moves to the next index, and changes nothing else; with
the example of index 1. -/
def Obligations.BuildMicroStep : Prop :=
  (∀ (s : State) (i : Byte) (c : Chain), s.phase = .build i c → ∃ t, engineStep s = .next t ∧
    (∀ k < 16, ∀ j, t.table.entry k j = if j = i then some (reducePow (k + 1) (i.setWidth 32)) else s.table.entry k j) ∧
    (i.toNat < 255 → t = { s with table := t.table, phase := .build (i + 1#8) c }) ∧
    (i.toNat = 255 → t = buildComplete c { s with table := t.table })) ∧
  tableValue 0 1#8 = 0x77073096#32 ∧ tableValue 1 1#8 = 0x191B3141#32 ∧ tableValue 15 1#8 = 0xAE689191#32

/-- The completion of a build (R75), in the micro-step of index 255: TABLE_VALID rises over a table that holds the values
of R71, and the engine is idle with DONE = 1, or enters phase CRC if a checksum follows. -/
def Obligations.BuildCompletion : Prop :=
  ∀ (s : State) (c : Chain), s.Inv → s.phase = .build 255#8 c → ∃ t, engineStep s = .next t ∧
    (∀ k < 16, ∀ j, t.table.entry k j = some (tableValue k j)) ∧
    (c = .none → t = { s with table := t.table, tableValid := true, phase := .idle, done := true }) ∧
    (c = .checksum → t = { s with table := t.table, tableValid := true, phase := .crc })

/-- BUILD_TABLE on the idle engine with no table (R73, R132): after 256 micro-steps, and not before, it has ended with
STATUS 0x00000006 and a table that holds the values of R71, and nothing else has changed. The run has no other agent's move to
come, so every step is the engine's (log 1). -/
def Obligations.BuildRunFillsTheTable : Prop :=
  ∀ s : State, s.NoFault → s.EngineAlone → s.Idle → s.tableValid = false →
    ∃ t u, exec .buildTable s = .next t ∧ steps 256 t = .next u ∧
      (∀ n < 256, ∃ v, steps n t = .next v ∧ v.busy = true ∧ v.tableValid = false) ∧
      (∀ k < 16, ∀ j, u.table.entry k j = some (tableValue k j)) ∧
      u = { s with table := u.table, tableValid := true, done := true, err := 0#3 } ∧ u.Ended ∧
      u.statusWord = 0x00000006#32

/-- Only build micro-steps, an accepted INVALIDATE_TABLE and reset write the table (R26, R76). -/
def Obligations.OnlyTheBuilderWritesTheTable : Prop :=
  ∀ s t : State, step s = .next t → t.table ≠ s.table →
    (s.EngineMoves ∧ ∃ i c, s.phase = .build i c) ∨
    (s.phase = .idle ∧ ∃ w, s.NextCommand w ∧ decode w = .ok .invalidateTable ∧ t.table = []) ∨
    (s.NextMove .reset ∧ t.table = [])

/-- R20: TABLE_VALID is bit 2 of STATUS and stands over a whole table; the completing micro-step of a build sets it, an
accepted INVALIDATE_TABLE and reset clear it, and nothing else changes it. -/
def Obligations.TableValidChangesOnly : Prop :=
  State.reset.tableValid = false ∧ (∀ s : State, s.statusWord.getLsbD 2 = s.tableValid) ∧
  (∀ (s : State) (c : Chain), s.phase = .build 255#8 c → ∃ t, engineStep s = .next t ∧ t.tableValid = true) ∧
  (∀ s : State, s.phase = .idle → ∃ t, exec .invalidateTable s = .next t ∧ t.tableValid = false) ∧
  (∀ s : State, ∃ t, perform .reset s = .next t ∧ t.tableValid = false) ∧
  (∀ s : State, s.Inv → s.tableValid = true → ∀ k < 16, ∀ i, s.table.entry k i = some (reducePow (k + 1) (i.setWidth 32))) ∧
  (∀ s t : State, step s = .next t → t.tableValid ≠ s.tableValid →
    (t.tableValid = true ∧ s.EngineMoves ∧ ∃ c, s.phase = .build 255#8 c) ∨
    (t.tableValid = false ∧ s.phase = .idle ∧ ∃ w, s.NextCommand w ∧ decode w = .ok .invalidateTable) ∨
    (t.tableValid = false ∧ s.NextMove .reset))

/-- R80: no build step fails and none sets an error code. -/
def Obligations.BuildCannotFail : Prop :=
  ∀ (s : State) (i : Byte) (c : Chain), s.phase = .build i c → ∃ t, engineStep s = .next t ∧ t.err = s.err

/-! ### The Checksum Engine (41_checksum_engine.md) -/

/-- R85: the CRC micro-step is chosen by `rem` alone, and `rem` never grows. -/
def Obligations.SequencerChoosesByRem : Prop :=
  ∀ (s : State) (n : Nat), s.phase = .crc → s.rem = some n →
    (16 ≤ n → engineStep s = windowStep s) ∧ (1 ≤ n → n < 16 → engineStep s = byteStep s) ∧
    (n = 0 → engineStep s = finalStep s) ∧
    (∀ t, engineStep s = .next t →
      t.rem = some (if 16 ≤ n then n - 16 else if 1 ≤ n then n - 1 else 0))

/-- R86: WindowStep over any table that holds words `T`, with the example's four partial values and new accumulator. -/
def Obligations.WindowMicroStep : Prop :=
  (∀ (s : State) (c : Word) (p n : Nat) (b : Fin 16 → Byte) (T : Nat → Byte → Word), s.phase = .crc → s.crc = some c →
    s.ptr = some p → s.rem = some n → 16 ≤ n → s.tableValid = true → (∀ k < 16, ∀ i, s.table.entry k i = some (T k i)) →
    p + 16 ≤ s.memSize → (∀ k : Fin 16, s.mem.read (p + k.val) = some (b k)) →
    engineStep s = .next
      { s with
        crc := some (
          (T 3 (b 12) ^^^ T 2 (b 13) ^^^ T 1 (b 14) ^^^ T 0 (b 15)) ^^^
          (T 7 (b 8) ^^^ T 6 (b 9) ^^^ T 5 (b 10) ^^^ T 4 (b 11)) ^^^
          (T 11 (b 4) ^^^ T 10 (b 5) ^^^ T 9 (b 6) ^^^ T 8 (b 7)) ^^^
          (T 15 (c.extractLsb' 0 8 ^^^ b 0) ^^^ T 14 (c.extractLsb' 8 8 ^^^ b 1) ^^^
            T 13 (c.extractLsb' 16 8 ^^^ b 2) ^^^ T 12 (c.extractLsb' 24 8 ^^^ b 3))),
        ptr := some (p + 16), rem := some (n - 16) }) ∧
  tableValue 15 0xFF#8 ^^^ tableValue 14 0xFE#8 ^^^ tableValue 13 0xFD#8 ^^^ tableValue 12 0xFC#8 = 0xF61BC721#32 ∧
  tableValue 11 4#8 ^^^ tableValue 10 5#8 ^^^ tableValue 9 6#8 ^^^ tableValue 8 7#8 = 0x1B2E8AB3#32 ∧
  tableValue 7 8#8 ^^^ tableValue 6 9#8 ^^^ tableValue 5 10#8 ^^^ tableValue 4 11#8 = 0x90364C11#32 ∧
  tableValue 3 12#8 ^^^ tableValue 2 13#8 ^^^ tableValue 1 14#8 ^^^ tableValue 0 15#8 = 0x4C321CF4#32 ∧
  windowFormula 0xFFFFFFFF#32 (fun k => BitVec.ofNat 8 k.val) = 0x31311D77#32

/-- R87: ByteStep over any table whose slice 0 holds words `T`, with the corner cases and the example. -/
def Obligations.ByteMicroStep : Prop :=
  (∀ (s : State) (c : Word) (p n : Nat) (x : Byte) (T : Byte → Word), s.phase = .crc → s.crc = some c → s.ptr = some p →
    s.rem = some n → 1 ≤ n → n ≤ 15 → s.tableValid = true → (∀ i, s.table.entry 0 i = some (T i)) → p < s.memSize →
    s.mem.read p = some x →
    engineStep s = .next
      { s with
        crc := some (T (c.extractLsb' 0 8 ^^^ x) ^^^ (c >>> 8)), ptr := some (p + 1), rem := some (n - 1) }) ∧
  byteFormula 0#32 0#8 = 0#32 ∧ byteFormula 0x12345678#32 0x78#8 = 0x00123456#32 ∧
  byteFormula 0xFFFFFFFF#32 0xFF#8 = 0x00FFFFFF#32 ∧ byteFormula 0xFFFFFFFF#32 0x00#8 = 0x2DFD1072#32

/-- R88: FinalStep, one atomic step, and a value of it from the spec's table of final steps. The example that stands
inside R88 gives a number that contradicts the rule's formula, so it is not stated (log 10). -/
def Obligations.FinalMicroStep : Prop :=
  (∀ (s : State) (c : Word), s.phase = .crc → s.rem = some 0 → s.crc = some c →
    engineStep s = .next { s with result := c ^^^ 0xFFFFFFFF#32, done := true, phase := .idle }) ∧
  (∀ s : State, s.phase = .crc → s.rem = some 0 → s.crc = some 0x340BC6D9#32 →
    ∃ t, engineStep s = .next t ∧ t.result = 0xCBF43926#32)

/-- Faults inside a micro-step (R89): the first byte, in address order, that lies at or above 2^ADDR_W or is not admitted
gives the fault, the faulted step writes nothing but the record of it, and every byte read lies in the latched range. That
an unadmitted byte below the top comes before a wrap further up is the reading of log 7. -/
def Obligations.ReadFaultsComeInAddressOrder : Prop :=
  ∀ (s : State) (p n j : Nat), s.NoFault → s.EngineAlone → s.phase = .crc → s.ptr = some p → s.rem = some n →
    j < (if 16 ≤ n then 16 else min n 1) →
    (∀ k < j, p + k < s.memSize ∧ s.mem.read (p + k) ≠ none) →
    (s.memSize ≤ p + j → step s = .fault .addressWrap ∧ s.record = { s with fault := some .addressWrap }) ∧
    (p + j < s.memSize → s.mem.read (p + j) = none →
      step s = .fault (.undefinedAccess (p + j)) ∧ s.record = { s with fault := some (.undefinedAccess (p + j)) }) ∧
    (s.Inv → ∃ a len, s.addr0 = some a ∧ s.len0 = some len ∧ a ≤ p + j ∧ p + j < a + len)

/-- The engine never reads an unbuilt table (R27). -/
def Obligations.UnbuiltTableIsNeverRead : Prop :=
  ∀ s : State, s.Inv → engineStep s ≠ .fault .tableUnbuilt

/-- R91: a WindowStep answers what sixteen ByteSteps answer, and the slice-by-16 checksum is the byte-at-a-time
checksum. -/
def Obligations.SliceBySixteenIsBytewise : Prop :=
  (∀ (s : State) (p n : Nat), s.tableValid = true → (∀ k < 16, ∀ i, s.table.entry k i = some (tableValue k i)) →
    s.ptr = some p → s.rem = some n → 16 ≤ n → p + 16 ≤ s.memSize → (∀ k < 16, s.mem.read (p + k) ≠ none) →
    ∃ t, windowStep s = .next t ∧ byteSteps 16 s = .next t) ∧
  (∀ (crc : Word) (b : Nat → Byte), windowFormula crc (fun k => b k.val) = bytewiseFrom crc b 16) ∧
  (∀ (b : Nat → Byte) (n : Nat), checksumOf b n = canonicalCrc b n)

/-- A CHECKSUM over a finished table (R90, R93, R98): on an admitted buffer of `L = 16q + r` bytes it ends after
`q + r + 1` micro-steps with `RESULT = Checksum(S)`, and not before, and it changes nothing but STATUS, RESULT and the
engine's registers. The run has no other agent's move to come, so every step is the engine's (log 1). -/
def Obligations.ChecksumRunComputesTheFunction : Prop :=
  ∀ (s : State) (b : Nat → Byte), s.NoFault → s.EngineAlone → s.Idle → s.Inv → s.tableValid = true →
    s.HoldsBuffer s.bufAddr.toNat s.bufLen.toNat b →
    ∃ t, exec (.checksum true) s = .next t ∧
      steps (s.bufLen.toNat / 16 + s.bufLen.toNat % 16 + 1) t = .next
        { s with
          err := 0#3, done := true, result := checksumOf b s.bufLen.toNat,
          crc := some (checksumOf b s.bufLen.toNat ^^^ 0xFFFFFFFF#32),
          ptr := some (s.bufAddr.toNat + s.bufLen.toNat), addr0 := some s.bufAddr.toNat,
          len0 := some s.bufLen.toNat, rem := some 0 } ∧
      ∀ n < s.bufLen.toNat / 16 + s.bufLen.toNat % 16 + 1, ∃ v, steps n t = .next v ∧ v.busy = true

/-- A first-use CHECKSUM (R83, R90, R98, R132): with no table it takes exactly 256 build micro-steps more and
gives the same RESULT, and leaves the table built. The run has no other agent's move to come, so every step is the engine's
(log 1). -/
def Obligations.FirstUseChecksumRun : Prop :=
  ∀ (s : State) (b : Nat → Byte), s.NoFault → s.EngineAlone → s.Idle → s.tableValid = false →
    s.HoldsBuffer s.bufAddr.toNat s.bufLen.toNat b →
    ∃ t u, exec (.checksum true) s = .next t ∧
      steps (256 + s.bufLen.toNat / 16 + s.bufLen.toNat % 16 + 1) t = .next u ∧ u.Ended ∧
      (∀ n < 256 + s.bufLen.toNat / 16 + s.bufLen.toNat % 16 + 1, ∃ v, steps n t = .next v ∧ v.busy = true) ∧
      u.result = checksumOf b s.bufLen.toNat ∧ u.err = 0#3 ∧ u.tableValid = true ∧
      (∀ k < 16, ∀ j, u.table.entry k j = some (tableValue k j)) ∧ u.bufAddr = s.bufAddr ∧ u.bufLen = s.bufLen ∧
      (∀ a, u.mem.read a = s.mem.read a)

/-- A first-use CHECKSUM is BUILD_TABLE followed by CHECKSUM (R83): after the 256 build micro-steps both ways are in the same
state. Neither run has another agent's move to come (log 1). -/
def Obligations.FirstUseIsBuildThenChecksum : Prop :=
  ∀ s : State, s.NoFault → s.EngineAlone → s.Idle → s.tableValid = false →
    ∃ t u v w, exec .buildTable s = .next t ∧ steps 256 t = .next u ∧ exec (.checksum true) u = .next v ∧
      exec (.checksum true) s = .next w ∧ steps 256 w = .next v

/-- With BUF_LEN = 0 (R92) the operation reads no memory, takes one FinalStep and gives RESULT 0, after a build if there is no
table. It is stated of a run with no other agent's move to come, so that every step is the engine's (log 1). -/
def Obligations.EmptyBufferChecksum : Prop :=
  ∀ s : State, s.NoFault → s.EngineAlone → s.Idle → s.bufLen = 0#32 →
    ∃ t u, exec (.checksum true) s = .next t ∧ steps (if s.tableValid then 1 else 257) t = .next u ∧
      u.Ended ∧ u.result = 0x00000000#32 ∧ u.tableValid = true ∧
      (∀ n < if s.tableValid then 1 else 257, ∃ v, steps n t = .next v ∧ v.busy = true) ∧
      (s.tableValid = false → ∀ k < 16, ∀ j, u.table.entry k j = some (tableValue k j))

/-- RESULT changes only at a FinalStep and at reset (R99). -/
def Obligations.ResultChangesOnlyAtTheFinalStep : Prop :=
  ∀ s t : State, step s = .next t → t.result ≠ s.result →
    (s.EngineMoves ∧ s.phase = .crc ∧ (s.Inv → s.rem = some 0) ∧ t.phase = .idle ∧ t.done = true) ∨
    (s.NextMove .reset ∧ t.result = 0#32)

/-! ### Errors, reset and faults (42_control.md, 60_exceptions.md, 70_reset_and_hazards.md) -/

/-- R101: every accepted command clears ERR, so NOP has the result of any accepted command that finishes at once without
error; a BUSY_REJECT code survives every engine step, and the next accepted command clears it. -/
def Obligations.ErrIsClearedByTheNextCommand : Prop :=
  (∀ (i : Instr) (s : State), s.phase = .idle → i ≠ .checksum false → ∃ t, exec i s = .next t ∧ t.err = 0#3) ∧
  (∀ s : State, s.phase = .idle → s.tableValid = true → exec .buildTable s = exec .nop s) ∧
  (∀ s t : State, engineStep s = .next t → t.err = s.err) ∧
  (∀ (s t : State) (w : Word), s.phase ≠ .idle → dispatchWord w s = .next t → t.err = 3#3 ∧ t.phase = s.phase)

/-- R118: the idle engine takes no step, and every register keeps its value. -/
def Obligations.IdleEngineRests : Prop :=
  ∀ s : State, s.phase = .idle → engineStep s = .next s ∧ (s.NoFault → s.EngineAlone → step s = .next s)

/-- R121 and R122: the reset input in any phase gives the reset values and abandons the operation: no micro-step of it is
left to run. -/
def Obligations.ResetGivesTheResetValues : Prop :=
  ∀ (s : State) (rest : List Move), s.NoFault → s.agenda = .reset :: rest → ∃ t, step s = .next t ∧
    t.err = 0#3 ∧ t.done = false ∧ t.tableValid = false ∧ t.busy = false ∧ t.statusWord = 0x00000000#32 ∧
    t.bufAddr = 0#32 ∧ t.bufLen = 0#32 ∧ t.result = 0#32 ∧ (∀ k i, t.table.entry k i = none) ∧ t.phase = .idle ∧
    t.crc = none ∧ t.ptr = none ∧ t.addr0 = none ∧ t.len0 = none ∧ t.rem = none ∧ engineStep t = .next t ∧ t.InReset

/-- A fault is recorded, nothing else is written, and the faulted state takes no further step, not even for reset (R12, R89,
R119). That the record is the fault field alone is the reading of log 13. -/
def Obligations.FaultsAreTerminal : Prop :=
  (∀ (s : State) (f : Fault), s.fault = some f → step s = .fault f ∧ s.record = s) ∧
  (∀ (s : State) (f : Fault), step s = .fault f →
    s.record = { s with fault := some f } ∧ step s.record = .fault f ∧ s.record.record = s.record ∧
    ∀ moves, step { s.record with agenda := .reset :: moves } = .fault f)

/-! ### Invariants -/

/-- The invariant holds at reset. Beside the values of R121 it rests on the model's choices for what surrounds the block: the
default platform (log 3), and memory that lists nothing (log 4). -/
def Obligations.ResetMeetsTheInvariant : Prop := State.reset.Inv ∧ State.reset.CrcTracksMemory

/-- Every step, of any agent, keeps the invariant. -/
def Obligations.StepKeepsTheInvariant : Prop :=
  ∀ s t : State, s.Inv → step s = .next t → t.Inv

/-- Every step, of any agent, keeps the accumulator at the byte-at-a-time CRC of the part of the latched range that has been
read, as memory holds it (R54, R90, R91). -/
def Obligations.StepKeepsTheAccumulatorTrue : Prop :=
  ∀ s t : State, s.Inv → s.CrcTracksMemory → step s = .next t → t.CrcTracksMemory

/-- At its FinalStep a CHECKSUM stores the CRC-32 of the latched range as memory holds it, whatever the agents did meanwhile
(R90, R91, R96), and in a state that records no fault the operation has ended there (R135). -/
def Obligations.FinalStepStoresTheRangeChecksum : Prop :=
  ∀ s : State, s.Inv → s.CrcTracksMemory → s.phase = .crc → s.rem = some 0 →
    ∃ a len b t, s.addr0 = some a ∧ s.len0 = some len ∧ s.HoldsBuffer a len b ∧ engineStep s = .next t ∧
      t.result = canonicalCrc b len ∧ t.phase = .idle ∧ t.done = true ∧ (s.fault = none → t.Ended)

/-- The pseudo-instruction CRC32 (R67, R68): from an idle block with or without a table, the run of the host program ends
(R135), its last read returns `Checksum(S)` of the buffer, and the operation has ended by then. Its form is the model's: the
program is placed on the agenda from outside (log 6) with no other agent's move to come (log 1), and one engine micro-step stands
between two polls of its WAITIDLE (log 9). -/
def Obligations.CrcProgramDeliversTheChecksum : Prop :=
  ∀ (s : State) (h : Nat) (addr len : Word) (b : Nat → Byte), s.NoFault → s.EngineAlone → s.Idle → s.Inv →
    addr.toNat < s.memSize → s.HoldsBuffer addr.toNat len.toNat b →
    ∃ n t, State.ProgramEndsAt h n (s.load h [.crc32 addr len]) t ∧ t.agenda = [] ∧ t.Ended ∧
      t.hostAnswer = some ⟨h, checksumOf b len.toNat⟩ ∧ t.bufAddr = addr ∧ t.bufLen = len ∧
      (∀ a, t.mem.read a = s.mem.read a)
end

