-- ==== Sys2Proof/Laws/Cells.lean ====
section
/-! SUPPORT. The laws of sparse storage: a read after a write, and that a write keeps the canonical form. -/

namespace Sys2Proof.Machine.Cells

variable {α : Type}

/-- A read after a write: the value written at its own index, the old value everywhere else. -/
theorem read_write (c : Cells α) (a b : Nat) (x : α) :
    Cells.read (Cells.write c a x) b = if b = a then some x else Cells.read c b := by
  induction c with
  | nil => simp [Cells.write, Cells.read]
  | cons e rest ih =>
    obtain ⟨k, v⟩ := e
    simp only [Cells.write]
    split
    · simp [Cells.read]
    · split
      · subst a; by_cases hb : b = k <;> simp [Cells.read, hb]
      · by_cases hb : b = k
        · subst b; simp [Cells.read, Ne.symm ‹¬a = k›]
        · simp [Cells.read, hb, ih]

@[simp] theorem read_write_same (c : Cells α) (a : Nat) (x : α) : Cells.read (Cells.write c a x) a = some x := by
  simp [read_write]

theorem read_write_of_ne (c : Cells α) {a b : Nat} (x : α) (h : b ≠ a) :
    Cells.read (Cells.write c a x) b = Cells.read c b := by
  simp [read_write, h]

theorem risingFrom_write {c : Cells α} {lo a : Nat} (x : α) (hlo : lo < a) (h : Cells.risingFrom lo c = true) :
    Cells.risingFrom lo (Cells.write c a x) = true := by
  induction c generalizing lo with
  | nil => simpa [Cells.write, Cells.risingFrom] using hlo
  | cons e rest ih =>
    obtain ⟨k, v⟩ := e
    simp only [Cells.risingFrom, Bool.and_eq_true, decide_eq_true_eq] at h
    simp only [Cells.write]
    split
    · simp [Cells.risingFrom, *]
    · split
      · subst a; simp [Cells.risingFrom, h]
      · simp [Cells.risingFrom, h.1, ih (by omega) h.2]

/-- A write keeps the indices rising. -/
theorem rising_write {c : Cells α} (a : Nat) (x : α) (h : Cells.rising c = true) :
    Cells.rising (Cells.write c a x) = true := by
  cases c with
  | nil => rfl
  | cons e rest =>
    obtain ⟨k, v⟩ := e
    simp only [Cells.rising] at h
    simp only [Cells.write]
    split
    · simp [Cells.rising, Cells.risingFrom, *]
    · split
      · subst a; simpa [Cells.rising] using h
      · exact risingFrom_write x (by omega) h

/-- A write below a bound keeps every index below it. -/
theorem below_write {c : Cells α} {n a : Nat} (x : α) (ha : a < n) (h : Cells.below n c = true) :
    Cells.below n (Cells.write c a x) = true := by
  induction c with
  | nil => simpa [Cells.write, Cells.below] using ha
  | cons e rest ih =>
    obtain ⟨k, v⟩ := e
    simp only [Cells.below, List.all_cons, Bool.and_eq_true] at h ih ⊢
    simp only [Cells.write]
    split
    · simpa [ha] using h
    · split
      · simpa [ha] using h.2
      · simpa [h.1] using ih h.2

end Sys2Proof.Machine.Cells

namespace Sys2Proof.Machine

/-- The one memory operation that writes keeps the canonical form (R43). -/
theorem Memory.wf_write {w a : Nat} {m : Memory} (b : Byte) (ha : a < 2 ^ w) (h : m.wf w = true) :
    Memory.wf w (Cells.write m a b) = true := by
  simp only [Memory.wf, Bool.and_eq_true] at h ⊢
  exact ⟨Cells.rising_write a b h.1, Cells.below_write b ha h.2⟩

/-- Memory at reset is in canonical form. -/
theorem Memory.wf_reset : State.reset.mem.wf State.reset.platform.addrW = true := rfl

end Sys2Proof.Machine
end

