-- ==== Sys2Proof/Laws/State.lean ====
section
/-! SUPPORT. The small lemmas of the state: one per field per named update, each true by rfl, so that no proof unfolds an
update, and the lemmas of BUSY and of the error codes. -/

namespace Sys2Proof.Machine.State

variable (s : State)

/-! ### `setErr` -/

@[simp] theorem setErr_err (c : ErrCode) : (s.setErr c).err = c.code := rfl
@[simp] theorem setErr_done (c : ErrCode) : (s.setErr c).done = s.done := rfl
@[simp] theorem setErr_tableValid (c : ErrCode) : (s.setErr c).tableValid = s.tableValid := rfl
@[simp] theorem setErr_bufAddr (c : ErrCode) : (s.setErr c).bufAddr = s.bufAddr := rfl
@[simp] theorem setErr_bufLen (c : ErrCode) : (s.setErr c).bufLen = s.bufLen := rfl
@[simp] theorem setErr_result (c : ErrCode) : (s.setErr c).result = s.result := rfl
@[simp] theorem setErr_table (c : ErrCode) : (s.setErr c).table = s.table := rfl
@[simp] theorem setErr_phase (c : ErrCode) : (s.setErr c).phase = s.phase := rfl
@[simp] theorem setErr_crc (c : ErrCode) : (s.setErr c).crc = s.crc := rfl
@[simp] theorem setErr_ptr (c : ErrCode) : (s.setErr c).ptr = s.ptr := rfl
@[simp] theorem setErr_addr0 (c : ErrCode) : (s.setErr c).addr0 = s.addr0 := rfl
@[simp] theorem setErr_len0 (c : ErrCode) : (s.setErr c).len0 = s.len0 := rfl
@[simp] theorem setErr_rem (c : ErrCode) : (s.setErr c).rem = s.rem := rfl
@[simp] theorem setErr_fault (c : ErrCode) : (s.setErr c).fault = s.fault := rfl
@[simp] theorem setErr_refusal (c : ErrCode) : (s.setErr c).refusal = s.refusal := rfl
@[simp] theorem setErr_platform (c : ErrCode) : (s.setErr c).platform = s.platform := rfl
@[simp] theorem setErr_mem (c : ErrCode) : (s.setErr c).mem = s.mem := rfl
@[simp] theorem setErr_agenda (c : ErrCode) : (s.setErr c).agenda = s.agenda := rfl
@[simp] theorem setErr_hostAnswer (c : ErrCode) : (s.setErr c).hostAnswer = s.hostAnswer := rfl
@[simp] theorem setErr_hostLoads (c : ErrCode) : (s.setErr c).hostLoads = s.hostLoads := rfl
@[simp] theorem setErr_memSize (c : ErrCode) : (s.setErr c).memSize = s.memSize := rfl
@[simp] theorem setErr_busy (c : ErrCode) : (s.setErr c).busy = s.busy := rfl

/-! ### `reportError` -/

@[simp] theorem reportError_err (c : ErrCode) : (s.reportError c).err = c.code := rfl
@[simp] theorem reportError_done (c : ErrCode) : (s.reportError c).done = true := rfl
@[simp] theorem reportError_tableValid (c : ErrCode) : (s.reportError c).tableValid = s.tableValid := rfl
@[simp] theorem reportError_bufAddr (c : ErrCode) : (s.reportError c).bufAddr = s.bufAddr := rfl
@[simp] theorem reportError_bufLen (c : ErrCode) : (s.reportError c).bufLen = s.bufLen := rfl
@[simp] theorem reportError_result (c : ErrCode) : (s.reportError c).result = s.result := rfl
@[simp] theorem reportError_table (c : ErrCode) : (s.reportError c).table = s.table := rfl
@[simp] theorem reportError_phase (c : ErrCode) : (s.reportError c).phase = s.phase := rfl
@[simp] theorem reportError_crc (c : ErrCode) : (s.reportError c).crc = s.crc := rfl
@[simp] theorem reportError_ptr (c : ErrCode) : (s.reportError c).ptr = s.ptr := rfl
@[simp] theorem reportError_addr0 (c : ErrCode) : (s.reportError c).addr0 = s.addr0 := rfl
@[simp] theorem reportError_len0 (c : ErrCode) : (s.reportError c).len0 = s.len0 := rfl
@[simp] theorem reportError_rem (c : ErrCode) : (s.reportError c).rem = s.rem := rfl
@[simp] theorem reportError_fault (c : ErrCode) : (s.reportError c).fault = s.fault := rfl
@[simp] theorem reportError_refusal (c : ErrCode) : (s.reportError c).refusal = s.refusal := rfl
@[simp] theorem reportError_platform (c : ErrCode) : (s.reportError c).platform = s.platform := rfl
@[simp] theorem reportError_mem (c : ErrCode) : (s.reportError c).mem = s.mem := rfl
@[simp] theorem reportError_agenda (c : ErrCode) : (s.reportError c).agenda = s.agenda := rfl
@[simp] theorem reportError_hostAnswer (c : ErrCode) : (s.reportError c).hostAnswer = s.hostAnswer := rfl
@[simp] theorem reportError_hostLoads (c : ErrCode) : (s.reportError c).hostLoads = s.hostLoads := rfl
@[simp] theorem reportError_memSize (c : ErrCode) : (s.reportError c).memSize = s.memSize := rfl
@[simp] theorem reportError_busy (c : ErrCode) : (s.reportError c).busy = s.busy := rfl

/-! ### `accept` -/

@[simp] theorem accept_err : (s.accept).err = ErrCode.none.code := rfl
@[simp] theorem accept_done : (s.accept).done = false := rfl
@[simp] theorem accept_tableValid : (s.accept).tableValid = s.tableValid := rfl
@[simp] theorem accept_bufAddr : (s.accept).bufAddr = s.bufAddr := rfl
@[simp] theorem accept_bufLen : (s.accept).bufLen = s.bufLen := rfl
@[simp] theorem accept_result : (s.accept).result = s.result := rfl
@[simp] theorem accept_table : (s.accept).table = s.table := rfl
@[simp] theorem accept_phase : (s.accept).phase = s.phase := rfl
@[simp] theorem accept_crc : (s.accept).crc = s.crc := rfl
@[simp] theorem accept_ptr : (s.accept).ptr = s.ptr := rfl
@[simp] theorem accept_addr0 : (s.accept).addr0 = s.addr0 := rfl
@[simp] theorem accept_len0 : (s.accept).len0 = s.len0 := rfl
@[simp] theorem accept_rem : (s.accept).rem = s.rem := rfl
@[simp] theorem accept_fault : (s.accept).fault = s.fault := rfl
@[simp] theorem accept_refusal : (s.accept).refusal = s.refusal := rfl
@[simp] theorem accept_platform : (s.accept).platform = s.platform := rfl
@[simp] theorem accept_mem : (s.accept).mem = s.mem := rfl
@[simp] theorem accept_agenda : (s.accept).agenda = s.agenda := rfl
@[simp] theorem accept_hostAnswer : (s.accept).hostAnswer = s.hostAnswer := rfl
@[simp] theorem accept_hostLoads : (s.accept).hostLoads = s.hostLoads := rfl
@[simp] theorem accept_memSize : (s.accept).memSize = s.memSize := rfl
@[simp] theorem accept_busy : (s.accept).busy = s.busy := rfl

/-! ### `finish` -/

@[simp] theorem finish_err : (s.finish).err = s.err := rfl
@[simp] theorem finish_done : (s.finish).done = true := rfl
@[simp] theorem finish_tableValid : (s.finish).tableValid = s.tableValid := rfl
@[simp] theorem finish_bufAddr : (s.finish).bufAddr = s.bufAddr := rfl
@[simp] theorem finish_bufLen : (s.finish).bufLen = s.bufLen := rfl
@[simp] theorem finish_result : (s.finish).result = s.result := rfl
@[simp] theorem finish_table : (s.finish).table = s.table := rfl
@[simp] theorem finish_phase : (s.finish).phase = s.phase := rfl
@[simp] theorem finish_crc : (s.finish).crc = s.crc := rfl
@[simp] theorem finish_ptr : (s.finish).ptr = s.ptr := rfl
@[simp] theorem finish_addr0 : (s.finish).addr0 = s.addr0 := rfl
@[simp] theorem finish_len0 : (s.finish).len0 = s.len0 := rfl
@[simp] theorem finish_rem : (s.finish).rem = s.rem := rfl
@[simp] theorem finish_fault : (s.finish).fault = s.fault := rfl
@[simp] theorem finish_refusal : (s.finish).refusal = s.refusal := rfl
@[simp] theorem finish_platform : (s.finish).platform = s.platform := rfl
@[simp] theorem finish_mem : (s.finish).mem = s.mem := rfl
@[simp] theorem finish_agenda : (s.finish).agenda = s.agenda := rfl
@[simp] theorem finish_hostAnswer : (s.finish).hostAnswer = s.hostAnswer := rfl
@[simp] theorem finish_hostLoads : (s.finish).hostLoads = s.hostLoads := rfl
@[simp] theorem finish_memSize : (s.finish).memSize = s.memSize := rfl
@[simp] theorem finish_busy : (s.finish).busy = s.busy := rfl

/-! ### `startCrc` -/

@[simp] theorem startCrc_err : (s.startCrc).err = s.err := rfl
@[simp] theorem startCrc_done : (s.startCrc).done = s.done := rfl
@[simp] theorem startCrc_tableValid : (s.startCrc).tableValid = s.tableValid := rfl
@[simp] theorem startCrc_bufAddr : (s.startCrc).bufAddr = s.bufAddr := rfl
@[simp] theorem startCrc_bufLen : (s.startCrc).bufLen = s.bufLen := rfl
@[simp] theorem startCrc_result : (s.startCrc).result = s.result := rfl
@[simp] theorem startCrc_table : (s.startCrc).table = s.table := rfl
@[simp] theorem startCrc_phase : (s.startCrc).phase = s.phase := rfl
@[simp] theorem startCrc_crc : (s.startCrc).crc = some crcInit := rfl
@[simp] theorem startCrc_ptr : (s.startCrc).ptr = some s.bufAddr.toNat := rfl
@[simp] theorem startCrc_addr0 : (s.startCrc).addr0 = some s.bufAddr.toNat := rfl
@[simp] theorem startCrc_len0 : (s.startCrc).len0 = some s.bufLen.toNat := rfl
@[simp] theorem startCrc_rem : (s.startCrc).rem = some s.bufLen.toNat := rfl
@[simp] theorem startCrc_fault : (s.startCrc).fault = s.fault := rfl
@[simp] theorem startCrc_refusal : (s.startCrc).refusal = s.refusal := rfl
@[simp] theorem startCrc_platform : (s.startCrc).platform = s.platform := rfl
@[simp] theorem startCrc_mem : (s.startCrc).mem = s.mem := rfl
@[simp] theorem startCrc_agenda : (s.startCrc).agenda = s.agenda := rfl
@[simp] theorem startCrc_hostAnswer : (s.startCrc).hostAnswer = s.hostAnswer := rfl
@[simp] theorem startCrc_hostLoads : (s.startCrc).hostLoads = s.hostLoads := rfl
@[simp] theorem startCrc_memSize : (s.startCrc).memSize = s.memSize := rfl
@[simp] theorem startCrc_busy : (s.startCrc).busy = s.busy := rfl

/-! ### `advanceCrc` -/

@[simp] theorem advanceCrc_err (c : Word) (n : Nat) : (s.advanceCrc c n).err = s.err := rfl
@[simp] theorem advanceCrc_done (c : Word) (n : Nat) : (s.advanceCrc c n).done = s.done := rfl
@[simp] theorem advanceCrc_tableValid (c : Word) (n : Nat) : (s.advanceCrc c n).tableValid = s.tableValid := rfl
@[simp] theorem advanceCrc_bufAddr (c : Word) (n : Nat) : (s.advanceCrc c n).bufAddr = s.bufAddr := rfl
@[simp] theorem advanceCrc_bufLen (c : Word) (n : Nat) : (s.advanceCrc c n).bufLen = s.bufLen := rfl
@[simp] theorem advanceCrc_result (c : Word) (n : Nat) : (s.advanceCrc c n).result = s.result := rfl
@[simp] theorem advanceCrc_table (c : Word) (n : Nat) : (s.advanceCrc c n).table = s.table := rfl
@[simp] theorem advanceCrc_phase (c : Word) (n : Nat) : (s.advanceCrc c n).phase = s.phase := rfl
@[simp] theorem advanceCrc_crc (c : Word) (n : Nat) : (s.advanceCrc c n).crc = some c := rfl
@[simp] theorem advanceCrc_ptr (c : Word) (n : Nat) : (s.advanceCrc c n).ptr = some (s.ptrValue + n) := rfl
@[simp] theorem advanceCrc_addr0 (c : Word) (n : Nat) : (s.advanceCrc c n).addr0 = s.addr0 := rfl
@[simp] theorem advanceCrc_len0 (c : Word) (n : Nat) : (s.advanceCrc c n).len0 = s.len0 := rfl
@[simp] theorem advanceCrc_rem (c : Word) (n : Nat) : (s.advanceCrc c n).rem = some (s.remValue - n) := rfl
@[simp] theorem advanceCrc_fault (c : Word) (n : Nat) : (s.advanceCrc c n).fault = s.fault := rfl
@[simp] theorem advanceCrc_refusal (c : Word) (n : Nat) : (s.advanceCrc c n).refusal = s.refusal := rfl
@[simp] theorem advanceCrc_platform (c : Word) (n : Nat) : (s.advanceCrc c n).platform = s.platform := rfl
@[simp] theorem advanceCrc_mem (c : Word) (n : Nat) : (s.advanceCrc c n).mem = s.mem := rfl
@[simp] theorem advanceCrc_agenda (c : Word) (n : Nat) : (s.advanceCrc c n).agenda = s.agenda := rfl
@[simp] theorem advanceCrc_hostAnswer (c : Word) (n : Nat) : (s.advanceCrc c n).hostAnswer = s.hostAnswer := rfl
@[simp] theorem advanceCrc_hostLoads (c : Word) (n : Nat) : (s.advanceCrc c n).hostLoads = s.hostLoads := rfl
@[simp] theorem advanceCrc_memSize (c : Word) (n : Nat) : (s.advanceCrc c n).memSize = s.memSize := rfl
@[simp] theorem advanceCrc_busy (c : Word) (n : Nat) : (s.advanceCrc c n).busy = s.busy := rfl

/-! ### `answer` -/

@[simp] theorem answer_err (h : Nat) (v : Word) : (s.answer h v).err = s.err := rfl
@[simp] theorem answer_done (h : Nat) (v : Word) : (s.answer h v).done = s.done := rfl
@[simp] theorem answer_tableValid (h : Nat) (v : Word) : (s.answer h v).tableValid = s.tableValid := rfl
@[simp] theorem answer_bufAddr (h : Nat) (v : Word) : (s.answer h v).bufAddr = s.bufAddr := rfl
@[simp] theorem answer_bufLen (h : Nat) (v : Word) : (s.answer h v).bufLen = s.bufLen := rfl
@[simp] theorem answer_result (h : Nat) (v : Word) : (s.answer h v).result = s.result := rfl
@[simp] theorem answer_table (h : Nat) (v : Word) : (s.answer h v).table = s.table := rfl
@[simp] theorem answer_phase (h : Nat) (v : Word) : (s.answer h v).phase = s.phase := rfl
@[simp] theorem answer_crc (h : Nat) (v : Word) : (s.answer h v).crc = s.crc := rfl
@[simp] theorem answer_ptr (h : Nat) (v : Word) : (s.answer h v).ptr = s.ptr := rfl
@[simp] theorem answer_addr0 (h : Nat) (v : Word) : (s.answer h v).addr0 = s.addr0 := rfl
@[simp] theorem answer_len0 (h : Nat) (v : Word) : (s.answer h v).len0 = s.len0 := rfl
@[simp] theorem answer_rem (h : Nat) (v : Word) : (s.answer h v).rem = s.rem := rfl
@[simp] theorem answer_fault (h : Nat) (v : Word) : (s.answer h v).fault = s.fault := rfl
@[simp] theorem answer_refusal (h : Nat) (v : Word) : (s.answer h v).refusal = s.refusal := rfl
@[simp] theorem answer_platform (h : Nat) (v : Word) : (s.answer h v).platform = s.platform := rfl
@[simp] theorem answer_mem (h : Nat) (v : Word) : (s.answer h v).mem = s.mem := rfl
@[simp] theorem answer_agenda (h : Nat) (v : Word) : (s.answer h v).agenda = s.agenda := rfl
@[simp] theorem answer_hostAnswer (h : Nat) (v : Word) : (s.answer h v).hostAnswer = some ⟨h, v⟩ := rfl
@[simp] theorem answer_hostLoads (h : Nat) (v : Word) : (s.answer h v).hostLoads = s.hostLoads := rfl
@[simp] theorem answer_memSize (h : Nat) (v : Word) : (s.answer h v).memSize = s.memSize := rfl
@[simp] theorem answer_busy (h : Nat) (v : Word) : (s.answer h v).busy = s.busy := rfl

/-! ### `resetBlock` -/

@[simp] theorem resetBlock_err : (s.resetBlock).err = 0#3 := rfl
@[simp] theorem resetBlock_done : (s.resetBlock).done = false := rfl
@[simp] theorem resetBlock_tableValid : (s.resetBlock).tableValid = false := rfl
@[simp] theorem resetBlock_bufAddr : (s.resetBlock).bufAddr = 0#32 := rfl
@[simp] theorem resetBlock_bufLen : (s.resetBlock).bufLen = 0#32 := rfl
@[simp] theorem resetBlock_result : (s.resetBlock).result = 0#32 := rfl
@[simp] theorem resetBlock_table : (s.resetBlock).table = [] := rfl
@[simp] theorem resetBlock_phase : (s.resetBlock).phase = .idle := rfl
@[simp] theorem resetBlock_crc : (s.resetBlock).crc = none := rfl
@[simp] theorem resetBlock_ptr : (s.resetBlock).ptr = none := rfl
@[simp] theorem resetBlock_addr0 : (s.resetBlock).addr0 = none := rfl
@[simp] theorem resetBlock_len0 : (s.resetBlock).len0 = none := rfl
@[simp] theorem resetBlock_rem : (s.resetBlock).rem = none := rfl
@[simp] theorem resetBlock_fault : (s.resetBlock).fault = s.fault := rfl
@[simp] theorem resetBlock_refusal : (s.resetBlock).refusal = s.refusal := rfl
@[simp] theorem resetBlock_platform : (s.resetBlock).platform = s.platform := rfl
@[simp] theorem resetBlock_mem : (s.resetBlock).mem = s.mem := rfl
@[simp] theorem resetBlock_agenda : (s.resetBlock).agenda = s.agenda := rfl
@[simp] theorem resetBlock_hostAnswer : (s.resetBlock).hostAnswer = s.hostAnswer := rfl
@[simp] theorem resetBlock_hostLoads : (s.resetBlock).hostLoads = s.hostLoads := rfl
@[simp] theorem resetBlock_memSize : (s.resetBlock).memSize = s.memSize := rfl

/-! ### BUSY (R17, R28) -/

theorem busy_eq_false_iff : s.busy = false ↔ s.phase = .idle := by
  unfold busy; cases s.phase <;> simp

theorem busy_eq_true_iff : s.busy = true ↔ s.phase ≠ .idle := by
  unfold busy; cases s.phase <;> simp

theorem busy_of_idle (h : s.phase = .idle) : s.busy = false := s.busy_eq_false_iff.2 h

theorem busy_of_not_idle (h : s.phase ≠ .idle) : s.busy = true := s.busy_eq_true_iff.2 h

/-! ### Reads of the engine registers that hold a value -/

variable {s}

theorem crcValue_some {c : Word} (h : s.crc = some c) : s.crcValue = c := by simp [crcValue, h]
theorem ptrValue_some {p : Nat} (h : s.ptr = some p) : s.ptrValue = p := by simp [ptrValue, h]
theorem remValue_some {n : Nat} (h : s.rem = some n) : s.remValue = n := by simp [remValue, h]
theorem addr0Value_some {a : Nat} (h : s.addr0 = some a) : s.addr0Value = a := by simp [addr0Value, h]
theorem len0Value_some {n : Nat} (h : s.len0 = some n) : s.len0Value = n := by simp [len0Value, h]

end Sys2Proof.Machine.State

namespace Sys2Proof.Machine.ErrCode

@[simp] theorem code_none : ErrCode.none.code = 0#3 := rfl
@[simp] theorem code_invalidArgument : ErrCode.invalidArgument.code = 1#3 := rfl
@[simp] theorem code_illegalCommand : ErrCode.illegalCommand.code = 2#3 := rfl
@[simp] theorem code_busyReject : ErrCode.busyReject.code = 3#3 := rfl

end Sys2Proof.Machine.ErrCode
end

