-- ==== Sys2Proof/Laws/Ops.lean ====
section
/-! SUPPORT. One lemma per shared operation that says all it can do: the engine's reads (R44, R89), stores by other agents
(R54), the acceptance of a CMD write (R62), register selection (R41) and table entries (R26). -/

namespace Sys2Proof.Machine

/-! ### The engine's reads -/

theorem State.memRead_eq_ok_iff {s : State} {a : Nat} {b : Byte} :
    s.memRead a = .ok b ↔ a < s.memSize ∧ s.mem.read a = some b := by
  unfold State.memRead
  split
  · simp; omega
  · cases Cells.read s.mem a with
    | none => simp
    | some b => simp; omega

theorem State.memRead_eq_error_iff {s : State} {a : Nat} {f : Fault} :
    s.memRead a = .error f ↔
      (s.memSize ≤ a ∧ f = .addressWrap) ∨ (a < s.memSize ∧ s.mem.read a = none ∧ f = .undefinedAccess a) := by
  unfold State.memRead
  split
  · have h : ¬ a < s.memSize := by omega
    simp [*, eq_comm]
  · have h : a < s.memSize := by omega
    cases Cells.read s.mem a <;> simp [*, eq_comm]

/-- The bytes read are exactly the bytes the single reads give. -/
theorem State.readBytes_eq_ok_iff {s : State} {a n : Nat} {v : Vector Byte n} :
    s.readBytes a n = .ok v ↔ ∀ k (h : k < n), s.memRead (a + k) = .ok v[k] := by
  induction n with
  | zero => simp [State.readBytes]
  | succ n ih =>
    simp only [State.readBytes]
    cases hr : s.readBytes a n with
    | error f =>
      simp only [reduceCtorEq, false_iff, not_forall]
      by_contra hall
      push Not at hall
      have := ih (v := v.pop.cast (by omega)) |>.2 (fun k hk => by simpa using hall k (by omega))
      simp [hr] at this
    | ok bs =>
      have hbs := (ih (v := bs)).1 hr
      cases hm : s.memRead (a + n) with
      | error f =>
        simp only [reduceCtorEq, false_iff, not_forall]
        exact ⟨n, by omega, by simp [hm]⟩
      | ok b =>
        simp only [Except.ok.injEq]
        constructor
        · rintro rfl k hk
          rcases Nat.lt_or_ge k n with h | h
          · simpa [Vector.getElem_push_lt h] using hbs k h
          · obtain rfl : k = n := by omega
            simpa using hm
        · intro hall
          ext k hk
          have h := hall k hk
          rcases Nat.lt_or_ge k n with hlt | hge
          · rw [hbs k hlt] at h
            simp [Vector.getElem_push_lt hlt, Except.ok.inj h]
          · obtain rfl : k = n := by omega
            rw [hm] at h
            simp [Except.ok.inj h]

/-- The first address that faults gives the fault (R89, R109). -/
theorem State.readBytes_eq_error_iff {s : State} {a n : Nat} {f : Fault} :
    s.readBytes a n = .error f ↔
      ∃ j < n, (∀ k < j, ∃ b, s.memRead (a + k) = .ok b) ∧ s.memRead (a + j) = .error f := by
  induction n generalizing f with
  | zero => simp [State.readBytes]
  | succ n ih =>
    simp only [State.readBytes]
    cases hr : s.readBytes a n with
    | error g =>
      obtain ⟨j, hj, hok, he⟩ := ih.1 hr
      constructor
      · rintro ⟨⟩
        exact ⟨j, by omega, hok, he⟩
      · rintro ⟨j', hj', hok', he'⟩
        rcases Nat.lt_trichotomy j j' with h | rfl | h
        · obtain ⟨b, hb⟩ := hok' j h
          simp [he] at hb
        · simpa [he] using he'
        · obtain ⟨b, hb⟩ := hok j' h
          simp [he'] at hb
    | ok bs =>
      have hbs := State.readBytes_eq_ok_iff.1 hr
      have hfirst : (∃ j < n + 1, (∀ k < j, ∃ b, s.memRead (a + k) = .ok b) ∧ s.memRead (a + j) = .error f) ↔
          s.memRead (a + n) = .error f := by
        constructor
        · rintro ⟨j, hj, -, he⟩
          rcases Nat.lt_or_ge j n with h | h
          · simp [hbs j h] at he
          · obtain rfl : j = n := by omega
            exact he
        · exact fun he => ⟨n, by omega, fun k hk => ⟨_, hbs k hk⟩, he⟩
      rw [hfirst]
      cases s.memRead (a + n) <;> simp

/-! ### Stores by other agents -/

/-- All that a store by another agent can answer (R54). -/
theorem storeByte_next_iff {a : Nat} {b : Byte} {s t : State} :
    storeByte a b s = .next t ↔
      a < s.memSize ∧ s.inLatchedRange a = false ∧ t = { s with mem := Cells.write s.mem a b } := by
  unfold storeByte
  by_cases h : s.memSize ≤ a
  · simp [h]
  · by_cases hl : s.inLatchedRange a
    · simp [h, hl]
    · simp [h, hl, eq_comm]; omega

/-! ### Loads by hosts -/

/-- All that a host's load can answer as a next state (R11). -/
theorem loadByte_cases {h a : Nat} {s t : State} (hl : loadByte h a s = .next t) :
    a < s.memSize ∧
      ((∃ b, s.mem.read a = some b ∧ t = s.answer h (b.setWidth 32)) ∨
       (s.mem.read a = none ∧
        t = { s.answer h ((Config.platformByte s.hostLoads).setWidth 32) with hostLoads := s.hostLoads + 1 })) := by
  unfold loadByte at hl
  split at hl
  · cases hl
  · refine ⟨by omega, ?_⟩
    split at hl
    · exact .inl ⟨_, ‹_›, (Host.Outcome.next.inj hl).symm⟩
    · exact .inr ⟨‹_›, (Host.Outcome.next.inj hl).symm⟩

/-! ### The acceptance of a CMD write -/

theorem issue_of_idle {body : State → State} {s : State} (h : s.phase = .idle) : issue body s = body s.accept := by
  simp [issue, s.busy_of_idle h]

theorem issue_of_busy {body : State → State} {s : State} (h : s.phase ≠ .idle) :
    issue body s = s.setErr .busyReject := by
  simp [issue, s.busy_of_not_idle h]

/-! ### Register selection -/

/-- The register a 32-bit access at an offset of the block selects (R38, R41). -/
theorem selectReg_offset {p : Platform} {h o : Nat} {k : AccessKind} (ho : o < 32) :
    selectReg p { host := h, addr := p.crcBase + o, bits := 32, kind := k } =
      (regAt o).elim (.error .mmioMisaligned) .ok := by
  have h1 : ¬ (p.crcBase + o < p.crcBase ∨ p.crcBase + 32 ≤ p.crcBase + o) := by omega
  simp only [selectReg, h1, if_false, ne_eq, not_true_eq_false, Nat.add_sub_cancel_left]
  cases regAt o <;> rfl

/-! ### Table entries -/

theorem tableIndex_inj {t t' : Nat} {i j : Byte} : tableIndex t i = tableIndex t' j ↔ t = t' ∧ i = j := by
  have hi := i.isLt
  have hj := j.isLt
  unfold tableIndex
  constructor
  · intro h
    exact ⟨by omega, BitVec.eq_of_toNat_eq (by omega)⟩
  · rintro ⟨rfl, rfl⟩; rfl

/-- An entry after a write of an entry. -/
theorem Table.entry_setEntry (T : Table) (t t' : Nat) (i j : Byte) (v : Word) :
    (T.setEntry t i v).entry t' j = if t' = t ∧ j = i then some v else T.entry t' j := by
  simp [Table.entry, Table.setEntry, Cells.read_write, tableIndex_inj]

theorem Table.wf_setEntry {T : Table} {t : Nat} (i : Byte) (v : Word) (ht : t < 16) (h : T.wf = true) :
    (T.setEntry t i v).wf = true := by
  have hi := i.isLt
  simp only [Table.wf, Bool.and_eq_true] at h ⊢
  exact ⟨Cells.rising_write _ v h.1, Cells.below_write v (by unfold tableIndex; omega) h.2⟩

end Sys2Proof.Machine
end

