-- ==== Sys2Proof/Laws/Engine.lean ====
section
/-! SUPPORT. What each engine micro-step can do (R74, R75, R85 to R89), said once. -/

namespace Sys2Proof.Machine

/-! ### The build micro-step -/

theorem buildRounds_fst (i : Byte) (T : Table) (n : Nat) : (buildRounds i T n).1 = reducePow n (i.setWidth 32) := by
  induction n with
  | zero => rfl
  | succ n ih => simp [buildRounds, reducePow, ih]

/-- An entry after `n` rounds of a build micro-step: the rounds write slices `0 .. n-1` of index `i` (R74). -/
theorem buildRounds_entry (i : Byte) (T : Table) (n t : Nat) (j : Byte) :
    Table.entry (buildRounds i T n).2 t j = if j = i ∧ t < n then some (tableValue t i) else T.entry t j := by
  induction n with
  | zero => simp [buildRounds]
  | succ n ih =>
    simp only [buildRounds, Table.entry_setEntry, ih, buildRounds_fst]
    by_cases hj : j = i
    · rcases Nat.lt_trichotomy t n with h | rfl | h
      · simp [hj, Nat.ne_of_lt h, h, Nat.lt_succ_of_lt h]
      · simp [hj, tableValue, reducePow]
      · simp [hj, Nat.ne_of_gt h, Nat.not_lt_of_gt h]; omega
    · simp [hj]

/-- An entry after the build micro-step of index `i` (R74). -/
theorem buildRow_entry (i : Byte) (T : Table) {t : Nat} (ht : t < 16) (j : Byte) :
    (buildRow i T).entry t j = if j = i then some (tableValue t i) else T.entry t j := by
  simp [buildRow, buildRounds_entry, ht]

theorem buildRounds_wf (i : Byte) {T : Table} (h : T.wf = true) {n : Nat} (hn : n ≤ 16) :
    Table.wf (buildRounds i T n).2 = true := by
  induction n with
  | zero => exact h
  | succ n ih => exact Table.wf_setEntry i _ (by omega) (ih (by omega))

theorem buildRow_wf (i : Byte) {T : Table} (h : T.wf = true) : (buildRow i T).wf = true :=
  buildRounds_wf i h (Nat.le_refl 16)

/-- The build micro-step of an index below 255 (R74). -/
theorem buildStep_next {i : Byte} (h : i.toNat < 255) (c : Chain) (s : State) :
    buildStep i c s = { s with table := buildRow i s.table, phase := .build (i + 1#8) c } := by
  simp [buildStep, h]

/-- The build micro-step of index 255 with no checksum to follow (R75). -/
theorem buildStep_last_alone {i : Byte} (h : ¬ i.toNat < 255) (s : State) :
    buildStep i .none s = { s with table := buildRow i s.table, tableValid := true, phase := .idle, done := true } := by
  simp [buildStep, h, buildComplete]

/-- The build micro-step of index 255 with a checksum to follow (R75). -/
theorem buildStep_last_checksum {i : Byte} (h : ¬ i.toNat < 255) (s : State) :
    buildStep i .checksum s = { s with table := buildRow i s.table, tableValid := true, phase := .crc } := by
  simp [buildStep, h, buildComplete]

/-- All that a build micro-step can do. -/
theorem buildStep_cases (i : Byte) (c : Chain) (s : State) :
    (i.toNat < 255 ∧ buildStep i c s = { s with table := buildRow i s.table, phase := .build (i + 1#8) c }) ∨
    (i = 255#8 ∧ c = .none ∧
      buildStep i c s = { s with table := buildRow i s.table, tableValid := true, phase := .idle, done := true }) ∨
    (i = 255#8 ∧ c = .checksum ∧
      buildStep i c s = { s with table := buildRow i s.table, tableValid := true, phase := .crc }) := by
  by_cases h : i.toNat < 255
  · exact .inl ⟨h, buildStep_next h c s⟩
  · have hi := i.isLt
    have h255 : i = 255#8 := BitVec.eq_of_toNat_eq (by simp; omega)
    cases c with
    | none => exact .inr (.inl ⟨h255, rfl, buildStep_last_alone h s⟩)
    | checksum => exact .inr (.inr ⟨h255, rfl, buildStep_last_checksum h s⟩)

/-! ### The CRC micro-steps -/

/-- All that a WindowStep can answer as a next state (R86). -/
theorem windowStep_next_iff {s t : State} :
    windowStep s = .next t ↔ ∃ v c, s.readBytes s.ptrValue 16 = .ok v ∧
      windowCrc s.lookup s.crcValue (fun k => v[k.val]) = some c ∧ t = s.advanceCrc c 16 := by
  unfold windowStep
  cases s.readBytes s.ptrValue 16 with
  | error f => simp
  | ok v =>
    cases h : windowCrc s.lookup s.crcValue (fun k => v[k.val]) with
    | none => simp [h]
    | some c => simp [h, eq_comm]

/-- All that a ByteStep can answer as a next state (R87). -/
theorem byteStep_next_iff {s t : State} :
    byteStep s = .next t ↔ ∃ x c, s.memRead s.ptrValue = .ok x ∧
      byteCrc s.lookup s.crcValue x = some c ∧ t = s.advanceCrc c 1 := by
  unfold byteStep
  cases s.memRead s.ptrValue with
  | error f => simp
  | ok x =>
    cases h : byteCrc s.lookup s.crcValue x with
    | none => simp [h]
    | some c => simp [h, eq_comm]

/-- All that the engine can answer as a next state in phase CRC (R85). -/
theorem crcStep_cases {s t : State} (h : crcStep s = .next t) :
    (16 ≤ s.remValue ∧ windowStep s = .next t) ∨
    (1 ≤ s.remValue ∧ s.remValue < 16 ∧ byteStep s = .next t) ∨
    (s.remValue = 0 ∧ t = { s with result := s.crcValue ^^^ crcXorOut, done := true, phase := .idle }) := by
  unfold crcStep at h
  split at h
  · exact .inl ⟨‹_›, h⟩
  · split at h
    · exact .inr (.inl ⟨‹_›, by omega, h⟩)
    · simp only [finalStep, Host.Outcome.next.injEq] at h
      exact .inr (.inr ⟨by omega, h.symm⟩)

theorem engineStep_idle {s : State} (h : s.phase = .idle) : engineStep s = .next s := by simp [engineStep, h]

theorem engineStep_build {s : State} {i : Byte} {c : Chain} (h : s.phase = .build i c) :
    engineStep s = .next (buildStep i c s) := by simp [engineStep, h]

theorem engineStep_crc {s : State} (h : s.phase = .crc) : engineStep s = crcStep s := by simp [engineStep, h]

/-- All that the engine can answer as a next state (R11). -/
theorem engineStep_cases {s t : State} (h : engineStep s = .next t) :
    (s.phase = .idle ∧ t = s) ∨
    (∃ i c, s.phase = .build i c ∧ t = buildStep i c s) ∨
    (s.phase = .crc ∧ crcStep s = .next t) := by
  unfold engineStep at h
  split at h
  · exact .inl ⟨‹_›, (Host.Outcome.next.inj h).symm⟩
  · exact .inr (.inl ⟨_, _, ‹_›, (Host.Outcome.next.inj h).symm⟩)
  · exact .inr (.inr ⟨‹_›, h⟩)

/-- What no engine micro-step writes (R3, R19, R26, R30). -/
theorem engineStep_frame {s t : State} (h : engineStep s = .next t) :
    t.err = s.err ∧ t.bufAddr = s.bufAddr ∧ t.bufLen = s.bufLen ∧ t.addr0 = s.addr0 ∧ t.len0 = s.len0 ∧
      t.fault = s.fault ∧ t.refusal = s.refusal ∧ t.platform = s.platform ∧ t.mem = s.mem ∧ t.agenda = s.agenda ∧
      t.hostAnswer = s.hostAnswer ∧ t.hostLoads = s.hostLoads := by
  obtain ⟨-, rfl⟩ | ⟨i, c, -, rfl⟩ | ⟨-, h⟩ := engineStep_cases h
  · simp
  · obtain ⟨-, h⟩ | ⟨-, -, h⟩ | ⟨-, -, h⟩ := buildStep_cases i c s <;> simp [h]
  · obtain ⟨-, h⟩ | ⟨-, -, h⟩ | ⟨-, rfl⟩ := crcStep_cases h
    · obtain ⟨v, c, -, -, rfl⟩ := windowStep_next_iff.1 h; simp
    · obtain ⟨v, c, -, -, rfl⟩ := byteStep_next_iff.1 h; simp
    · simp

/-! ### The formulas over a finished table -/

/-- The window formula when every entry of the table can be read. -/
theorem windowCrc_of_entries {look : Nat → Byte → Option Word} {T : Nat → Byte → Word}
    (h : ∀ t < 16, ∀ i, look t i = some (T t i)) (crc : Word) (b : Fin 16 → Byte) :
    windowCrc look crc b = some
      ((T 3 (b 12) ^^^ T 2 (b 13) ^^^ T 1 (b 14) ^^^ T 0 (b 15)) ^^^
       (T 7 (b 8) ^^^ T 6 (b 9) ^^^ T 5 (b 10) ^^^ T 4 (b 11)) ^^^
       (T 11 (b 4) ^^^ T 10 (b 5) ^^^ T 9 (b 6) ^^^ T 8 (b 7)) ^^^
       (T 15 (byteOf 0 crc ^^^ b 0) ^^^ T 14 (byteOf 1 crc ^^^ b 1) ^^^ T 13 (byteOf 2 crc ^^^ b 2) ^^^
        T 12 (byteOf 3 crc ^^^ b 3))) := by
  simp [windowCrc, h, partialXor]

/-- The byte formula when slice 0 of the table can be read. -/
theorem byteCrc_of_entries {look : Nat → Byte → Option Word} {T : Nat → Byte → Word}
    (h : ∀ t < 16, ∀ i, look t i = some (T t i)) (crc : Word) (x : Byte) :
    byteCrc look crc x = some (T 0 (byteOf 0 crc ^^^ x) ^^^ (crc >>> 8)) := by
  simp [byteCrc, h]

theorem windowCrc_of_table {look : Nat → Byte → Option Word} (h : ∀ t < 16, ∀ i, look t i = some (tableValue t i))
    (crc : Word) (b : Fin 16 → Byte) : windowCrc look crc b = some (windowFormula crc b) :=
  windowCrc_of_entries h crc b

theorem byteCrc_of_table {look : Nat → Byte → Option Word} (h : ∀ t < 16, ∀ i, look t i = some (tableValue t i))
    (crc : Word) (x : Byte) : byteCrc look crc x = some (byteFormula crc x) :=
  byteCrc_of_entries h crc x

theorem State.lookup_of_valid {s : State} (h : s.tableValid = true) : s.lookup = s.table.entry := by
  funext t i; simp [State.lookup, h]

end Sys2Proof.Machine
end

