-- ==== Sys2Proof/Laws/PerInstr.lean ====
section
/-! SUPPORT. Statements about every instruction as syntax, one lemma per constructor. -/

namespace Sys2Proof

/-- WordFields: the fields of the encoded word are the instruction's fields (R57), and they are legal (R58 to R60). -/
def Laws.WordFields.Statement (i : Instr) : Prop := fieldsOf (encode i) = i.fields ∧ i.wf = true

theorem Laws.WordFields.nop : Laws.WordFields.Statement .nop := by unfold Laws.WordFields.Statement; decide

theorem Laws.WordFields.buildTable : Laws.WordFields.Statement .buildTable := by
  unfold Laws.WordFields.Statement; decide

theorem Laws.WordFields.checksum (p : Bool) : Laws.WordFields.Statement (.checksum p) := by
  unfold Laws.WordFields.Statement; revert p; decide

theorem Laws.WordFields.invalidateTable : Laws.WordFields.Statement .invalidateTable := by
  unfold Laws.WordFields.Statement; decide

end Sys2Proof
end

