-- ==== Sys2Proof/Laws/Step.lean ====
section
/-! SUPPORT. What a host access, a CMD write and a step can do, said once (R11, R39 to R41, R62). -/

namespace Sys2Proof.Machine

/-! ### CMD writes -/

/-- Every command's meaning is a CMD write of its body (R62). -/
def commandBody : Instr → State → State
  | .nop => nopBody
  | .buildTable => buildTableBody
  | .checksum p => checksumBody p
  | .invalidateTable => invalidateTableBody

theorem exec_eq_issue (i : Instr) (s : State) : exec i s = .next (issue (commandBody i) s) := by
  cases i <;> rfl

/-- While BUSY = 1 every command is dropped (R62). -/
theorem exec_of_busy (i : Instr) {s : State} (h : s.phase ≠ .idle) : exec i s = .next (s.setErr .busyReject) := by
  rw [exec_eq_issue, issue_of_busy h]

/-- On the idle engine every command is accepted (R62). -/
theorem exec_of_idle (i : Instr) {s : State} (h : s.phase = .idle) : exec i s = .next (commandBody i s.accept) := by
  rw [exec_eq_issue, issue_of_idle h]

/-- What the body of a command can do. -/
theorem commandBody_cases (i : Instr) (s : State) :
    (i = .nop ∧ commandBody i s = s.finish) ∨
    (i = .buildTable ∧ s.tableValid = true ∧ commandBody i s = s.finish) ∨
    (i = .buildTable ∧ s.tableValid = false ∧ commandBody i s = { s with phase := .build 0#8 .none }) ∨
    (i = .checksum false ∧ commandBody i s = s.reportError .invalidArgument) ∨
    (i = .checksum true ∧ s.tableValid = true ∧ commandBody i s = { s.startCrc with phase := .crc }) ∨
    (i = .checksum true ∧ s.tableValid = false ∧
      commandBody i s = { s.startCrc with phase := .build 0#8 .checksum }) ∨
    (i = .invalidateTable ∧ commandBody i s = State.finish { s with tableValid := false, table := [] }) := by
  cases i with
  | nop => simp [commandBody, nopBody]
  | buildTable => cases h : s.tableValid <;> simp [commandBody, buildTableBody, h]
  | checksum p => cases p <;> cases h : s.tableValid <;> simp [commandBody, checksumBody, h]
  | invalidateTable => simp [commandBody, invalidateTableBody]

theorem dispatchWord_of_ok {w : Word} {i : Instr} (h : decode w = .ok i) (s : State) :
    dispatchWord w s = exec i s := by simp [dispatchWord, h]

theorem dispatchWord_of_error {w : Word} {e : DecodeError} (h : decode w = .error e) (s : State) :
    dispatchWord w s = .next (issue illegalBody s) := by simp [dispatchWord, h, illegalCommand]

/-- All that a CMD write can do (R62, R109). -/
theorem dispatchWord_cases {w : Word} {s t : State} (h : dispatchWord w s = .next t) :
    (s.phase ≠ .idle ∧ t = s.setErr .busyReject) ∨
    (s.phase = .idle ∧ ∃ i, decode w = .ok i ∧ t = commandBody i s.accept) ∨
    (s.phase = .idle ∧ (∃ e, decode w = .error e) ∧ t = s.accept.reportError .illegalCommand) := by
  by_cases hp : s.phase = .idle
  · cases hd : decode w with
    | ok i =>
      rw [dispatchWord_of_ok hd, exec_of_idle i hp] at h
      exact .inr (.inl ⟨hp, i, rfl, (Host.Outcome.next.inj h).symm⟩)
    | error e =>
      rw [dispatchWord_of_error hd, issue_of_idle hp] at h
      exact .inr (.inr ⟨hp, ⟨e, rfl⟩, (Host.Outcome.next.inj h).symm⟩)
  · refine .inl ⟨hp, ?_⟩
    cases hd : decode w with
    | ok i => rw [dispatchWord_of_ok hd, exec_of_busy i hp] at h; exact (Host.Outcome.next.inj h).symm
    | error e => rw [dispatchWord_of_error hd, issue_of_busy hp] at h; exact (Host.Outcome.next.inj h).symm

/-! ### Host accesses -/

/-- All that a host access can answer as a next state (R39, R40). -/
theorem performAccess_cases {a : HostAccess} {s t : State} (h : performAccess a s = .next t) :
    (∃ r, a.kind = .read ∧ t = s.answer a.host (s.regRead r)) ∨
    (∃ w, a.kind = .write w ∧ selectReg s.platform a = .ok .cmd ∧ dispatchWord w s = .next t) ∨
    (∃ w, a.kind = .write w ∧ t = { s with bufAddr := truncAddr s.platform w }) ∨
    (∃ w, a.kind = .write w ∧ t = { s with bufLen := w }) ∨
    (∃ w, a.kind = .write w ∧ t = s) := by
  unfold performAccess at h
  split at h
  · cases h
  · rename_i r hr
    split at h
    · exact .inl ⟨r, ‹_›, (Host.Outcome.next.inj h).symm⟩
    · rename_i w hw
      cases r with
      | cmd => exact .inr (.inl ⟨w, hw, hr, h⟩)
      | bufAddr => exact .inr (.inr (.inl ⟨w, hw, (Host.Outcome.next.inj h).symm⟩))
      | bufLen => exact .inr (.inr (.inr (.inl ⟨w, hw, (Host.Outcome.next.inj h).symm⟩)))
      | status => exact .inr (.inr (.inr (.inr ⟨w, hw, (Host.Outcome.next.inj h).symm⟩)))
      | result => exact .inr (.inr (.inr (.inr ⟨w, hw, (Host.Outcome.next.inj h).symm⟩)))
      | reserved => exact .inr (.inr (.inr (.inr ⟨w, hw, (Host.Outcome.next.inj h).symm⟩)))
    · cases h

/-! ### Steps -/

theorem step_of_noFault {s : State} (hf : s.fault = none) (hr : s.refusal = none) : step s = takeMove s := by
  simp [step, hf, hr]

theorem takeMove_nil {s : State} (h : s.agenda = []) : takeMove s = engineStep s := by simp [takeMove, h]

theorem takeMove_cons {s : State} {m : Move} {rest : List Move} (h : s.agenda = m :: rest) :
    takeMove s = perform m { s with agenda := rest } := by simp [takeMove, h]

/-- All that a step can answer as a next state (R11, R119). -/
theorem step_cases {s t : State} (h : step s = .next t) :
    s.fault = none ∧ s.refusal = none ∧
      ((s.agenda = [] ∧ engineStep s = .next t) ∨
       ∃ m rest, s.agenda = m :: rest ∧ perform m { s with agenda := rest } = .next t) := by
  unfold step at h
  split at h
  · cases h
  · cases h
  · refine ⟨‹_›, ‹_›, ?_⟩
    cases ha : s.agenda with
    | nil => exact .inl ⟨rfl, by simpa [takeMove, ha] using h⟩
    | cons m rest => exact .inr ⟨m, rest, rfl, by simpa [takeMove, ha] using h⟩

/-- Bit 0 of the STATUS word is BUSY (R21). -/
theorem State.statusWord_bit0 (s : State) : s.statusWord[0] = s.busy := by
  have h : ∀ (e : BitVec 3) (t d b : Bool),
      ((e ++ 0#1 ++ BitVec.ofBool t ++ BitVec.ofBool d ++ BitVec.ofBool b).setWidth 32)[0] = b := by decide
  exact h _ _ _ _

/-- All that one round of WAITIDLE can do (R68). -/
theorem pollStatus_cases (h : Nat) (s : State) :
    (s.busy = true ∧ pollStatus h s = { s.answer h s.statusWord with agenda := .engine :: .waitIdle h :: s.agenda }) ∨
    (s.busy = false ∧ pollStatus h s = s.answer h s.statusWord) := by
  cases hb : s.busy <;> simp [pollStatus, s.statusWord_bit0, hb]

end Sys2Proof.Machine
end

