-- ==== Sys2Proof/Laws/Safety.lean ====
section
/-! SUPPORT. Laws of the words claims are said in: runs of steps, the latched range, the placed command, and the table that
rows of a build leave behind. -/

namespace Sys2Proof.Machine

/-! ### Runs -/

theorem steps_zero (s : State) : steps 0 s = .next s := rfl

theorem steps_one {s t : State} (h : step s = .next t) : steps 1 s = .next t := by simp [steps, h]

/-- A run is cut anywhere (R12). -/
theorem steps_add {m : Nat} (n : Nat) {s t : State} (h : steps m s = .next t) : steps (m + n) s = steps n t := by
  induction m generalizing s with
  | zero => cases h; rw [Nat.zero_add]
  | succ m ih =>
    rw [Nat.succ_add]
    simp only [steps] at h ⊢
    cases hs : step s with
    | next u => rw [hs] at h; exact ih h
    | fault f => rw [hs] at h; cases h
    | refused r => rw [hs] at h; cases h

/-- With no other agent's move to come, a step is the engine's (R11). -/
theorem step_of_engineAlone {s : State} (hn : s.NoFault) (ha : s.EngineAlone) : step s = engineStep s := by
  rw [step_of_noFault hn.1 hn.2, takeMove_nil ha]

/-- With no other agent's move to come, none comes later in the run: no engine step places a move (R3, R11). -/
theorem steps_agenda_nil {n : Nat} {s t : State} (ha : s.agenda = []) (h : steps n s = .next t) : t.agenda = [] := by
  induction n generalizing s with
  | zero => cases h; exact ha
  | succ n ih =>
    simp only [steps] at h
    cases hs : step s with
    | next u =>
      rw [hs] at h
      obtain ⟨-, -, ⟨-, he⟩ | ⟨m, rest, hm, -⟩⟩ := step_cases hs
      · exact ih ((engineStep_frame he).2.2.2.2.2.2.2.2.2.1.trans ha) h
      · rw [ha] at hm; cases hm
    | fault f => rw [hs] at h; cases h
    | refused r => rw [hs] at h; cases h

/-! ### The latched range (R54) -/

theorem State.inLatchedRange_eq_true_iff (s : State) (x : Nat) :
    s.inLatchedRange x = true ↔ s.ChecksumRunning ∧ s.addr0Value ≤ x ∧ x < s.addr0Value + s.len0Value := by
  unfold State.inLatchedRange State.ChecksumRunning
  cases s.phase with
  | idle => simp
  | crc => simp
  | build i c => cases c <;> simp

/-! ### A placed CMD write (R16, R40) -/

/-- The access by which a host writes CMD is `Dispatch` of the word. -/
theorem perform_cmdWrite {p : Platform} {s : State} (hp : s.platform = p) (h : Nat) (w : Word) :
    perform (cmdWrite p h w) s = dispatchWord w s := by
  subst hp
  have hsel := selectReg_offset (p := s.platform) (h := h) (o := 0) (k := .write w) (by decide)
  simp only [perform, cmdWrite, performAccess]
  rw [show s.platform.crcBase = s.platform.crcBase + 0 from rfl, hsel]
  rfl

/-! ### The table of a build -/

/-- The table after the build micro-steps of the indices `0 .. n-1`. -/
def buildRows : Nat → Table → Table
  | 0, T => T
  | n + 1, T => buildRow (BitVec.ofNat 8 n) (buildRows n T)

theorem buildRows_succ (n : Nat) (T : Table) : buildRows (n + 1) T = buildRow (BitVec.ofNat 8 n) (buildRows n T) := rfl

theorem buildRows_entry {n : Nat} (hn : n ≤ 256) (T : Table) {t : Nat} (ht : t < 16) (j : Byte) :
    (buildRows n T).entry t j = if j.toNat < n then some (tableValue t j) else T.entry t j := by
  induction n with
  | zero => simp [buildRows]
  | succ n ih =>
    have hn' : (BitVec.ofNat 8 n).toNat = n := by simp; omega
    rw [buildRows_succ, buildRow_entry _ _ ht, ih (by omega)]
    by_cases hj : j = BitVec.ofNat 8 n
    · subst hj; simp [hn']
    · have hne : j.toNat ≠ n := fun e => hj (BitVec.eq_of_toNat_eq (by rw [e, hn']))
      simp only [hj, if_false]
      by_cases hlt : j.toNat < n
      · simp [hlt, Nat.lt_succ_of_lt hlt]
      · simp [hlt, show ¬ j.toNat < n + 1 by omega]

theorem buildRows_wf (n : Nat) {T : Table} (h : T.wf = true) : (buildRows n T).wf = true := by
  induction n with
  | zero => exact h
  | succ n ih => exact buildRow_wf _ ih

/-! ### The invariant does not look at the schedule -/

theorem State.Inv.setAgenda {s : State} (h : s.Inv) (moves : List Move) : ({ s with agenda := moves } : State).Inv where
  errLegal := h.errLegal
  platformWf := h.platformWf
  bufAddrFits := h.bufAddrFits
  memWf := h.memWf
  tableWf := h.tableWf
  doneClear := h.doneClear
  tableFull := h.tableFull
  tableEmpty := h.tableEmpty
  tablePartial := h.tablePartial
  crcHasTable := h.crcHasTable
  latched := h.latched

end Sys2Proof.Machine
end

