-- ==== Sys2Proof/Tests/Slice0.lean ====
section
/-! SUPPORT. The model's own tests: ill-formed terms that the checks refuse, words written out bit by bit from the spec's
encodings, vectors of 95_test_vectors.md on single steps, and for every obligation with hypotheses a witness that meets
them. Expected values are the spec's. -/

namespace Sys2Proof.Tests

open Sys2Proof Sys2Proof.Machine

/-! ### Well-formedness refuses ill-formed terms (R57 to R60, R7, R38, R26, R43) -/

theorem test_wf_reservedOp : CommandFields.opDefined { op := 0x04#8, p := false, rsv := 0#23 } = false := by decide
theorem test_wf_reservedP : CommandFields.pAllowed { op := 0x01#8, p := true, rsv := 0#23 } = false := by decide
theorem test_wf_reservedBits : CommandFields.rsvZero { op := 0x02#8, p := false, rsv := 1#23 } = false := by decide
theorem test_wf_fields : ∀ f ∈ ([⟨0x04#8, false, 0#23⟩, ⟨0x01#8, true, 0#23⟩, ⟨0x02#8, false, 1#23⟩] : List CommandFields),
    f.wf = false := by decide
theorem test_wf_baseUnaligned : Platform.baseAligned { crcBase := 0x1010, addrW := 32 } = false := by decide
theorem test_wf_addrW : Platform.addrWInRange { crcBase := 0, addrW := 0 } = false ∧
    Platform.addrWInRange { crcBase := 0, addrW := 33 } = false := by decide
theorem test_wf_platform : Platform.wf { crcBase := 0x1010, addrW := 32 } = false ∧
    Platform.wf { crcBase := 0, addrW := 33 } = false ∧ Platform.wf .default = true := by decide
theorem test_wf_memoryUnsorted : Memory.wf 32 [(2, 0#8), (1, 0#8)] = false ∧ Memory.wf 32 [(1, 0#8), (1, 1#8)] = false := by
  decide
theorem test_wf_memoryTooHigh : Memory.wf 4 [(16, 0#8)] = false := by decide
theorem test_wf_table : Table.wf [(4096, 0#32)] = false ∧ Table.wf [(5, 0#32), (3, 0#32)] = false := by decide

/-! ### Decoding, from the encodings of R61 written bit by bit: RSV(23) P(1) OP(8) -/

theorem test_decode_nop : decode 0b00000000000000000000000_0_00000000#32 = .ok .nop := by decide
theorem test_decode_buildTable : decode 0b00000000000000000000000_0_00000001#32 = .ok .buildTable := by decide
theorem test_decode_checksum : decode 0b00000000000000000000000_1_00000010#32 = .ok (.checksum true) := by decide
theorem test_decode_checksumAbsent : decode 0b00000000000000000000000_0_00000010#32 = .ok (.checksum false) := by decide
theorem test_decode_invalidateTable : decode 0b00000000000000000000000_0_00000011#32 = .ok .invalidateTable := by decide
theorem test_decode_illegal :
    decode 0b00000000000000000000000_1_00000000#32 = .error .reservedP ∧
    decode 0b00000000000000000000000_1_00000011#32 = .error .reservedP ∧
    decode 0b00000000000000000000000_0_11111111#32 = .error .reservedOp ∧
    decode 0b00000000000000000000001_0_00000010#32 = .error .reservedBits ∧
    decode 0b10000000000000000000000_0_00000010#32 = .error .reservedBits := by decide
theorem test_encode : encode .nop = 0x00000000#32 ∧ encode .buildTable = 0x00000001#32 ∧
    encode (.checksum true) = 0x00000102#32 ∧ encode (.checksum false) = 0x00000002#32 ∧
    encode .invalidateTable = 0x00000003#32 := by decide
theorem test_decodeTableWord : decodeTableWord 32 0x00000102 = some (.checksum true) ∧
    decodeTableWord 32 0x00000101 = none := by decide

/-! ### States the tests and witnesses stand on -/

/-- Bytes at consecutive addresses, as memory. -/
def bytesFrom (a : Nat) (bs : List Byte) : Memory := bs.zipIdx.map fun e => (a + e.2, e.1)

/-- A running CRC over `[a, a + len)` at pointer `p`, with a table that lists only `T`. -/
def running (T : Table) (mem : Memory) (a len p n : Nat) (c : Word) : State :=
  { State.reset with
    tableValid := true, table := T, mem := mem, phase := .crc, addr0 := some a, len0 := some len, ptr := some p,
    rem := some n, crc := some c }

/-- A finished table. It is irreducible, since nothing should evaluate its 4096 entries. -/
@[irreducible] def fullTable : Table := buildRows 256 []

theorem fullTable_entry : ∀ t < 16, ∀ i, fullTable.entry t i = some (tableValue t i) := by
  intro t ht i
  unfold fullTable
  exact (buildRows_entry (Nat.le_refl 256) [] ht i).trans (if_pos i.isLt)

theorem fullTable_wf : fullTable.wf = true := by
  unfold fullTable
  exact buildRows_wf 256 rfl

/-- The idle engine with a finished table and a one-byte buffer at 0. -/
def built : State :=
  { State.reset with tableValid := true, table := fullTable, done := true, mem := [(0, 0x61#8)], bufLen := 1#32 }

/-- A build at index `i`, as the steps before it leave the table. -/
def building (i : Byte) (c : Chain) : State :=
  { State.reset with phase := .build i c, table := buildRows i.toNat [] }

theorem built_inv : built.Inv where
  errLegal := by decide
  platformWf := by decide
  bufAddrFits := by decide
  memWf := by decide
  tableWf := fullTable_wf
  doneClear := fun h => by cases h
  tableFull := fun _ => fullTable_entry
  tableEmpty := fun h => by cases h
  tablePartial := fun i c h => by cases h
  crcHasTable := fun h => by cases h
  latched := by rintro (h | ⟨i, h⟩) <;> cases h

/-- The reset state with a buffer, a memory in canonical form and moves to come meets the invariant. -/
theorem idle_inv (a len : Word) {mem : Memory} (hm : mem.wf 32 = true) (moves : List Move) :
    ({ State.reset with bufAddr := a, bufLen := len, mem := mem, agenda := moves } : State).Inv where
  errLegal := show (0#3).toNat ≤ 3 by decide
  platformWf := by rfl
  bufAddrFits := a.isLt
  memWf := hm
  tableWf := by rfl
  doneClear := fun _ => rfl
  tableFull := fun h => by cases h
  tableEmpty := fun _ _ => rfl
  tablePartial := fun i c h => by cases h
  crcHasTable := fun h => by cases h
  latched := by rintro (h | ⟨i, h⟩) <;> cases h

theorem building_busy (i : Byte) (c : Chain) : (building i c).phase ≠ .idle := fun h => by cases h

theorem building_inv (i : Byte) : (building i .none).Inv where
  errLegal := by simp [building, State.reset]
  platformWf := by rfl
  bufAddrFits := by simp [building, State.reset, State.memSize, Platform.default]
  memWf := by rfl
  tableWf := buildRows_wf i.toNat rfl
  doneClear := fun _ => rfl
  tableFull := fun h => by cases h
  tableEmpty := fun _ h => absurd rfl (h i .none)
  tablePartial := by
    intro j c h
    cases h
    refine ⟨rfl, fun t ht j => ?_⟩
    have := i.isLt
    exact buildRows_entry (by omega) [] ht j
  crcHasTable := fun h => by cases h
  latched := by rintro (h | ⟨j, h⟩) <;> cases h

/-- A build that a CHECKSUM of the empty range started. -/
def buildingChained (i : Byte) : State :=
  { building i .checksum with
    addr0 := some 0, len0 := some 0, ptr := some 0, rem := some 0, crc := some crcInit }

theorem buildingChained_inv (i : Byte) : (buildingChained i).Inv where
  errLegal := by simp [buildingChained, building, State.reset]
  platformWf := by rfl
  bufAddrFits := by simp [buildingChained, building, State.reset, State.memSize, Platform.default]
  memWf := by rfl
  tableWf := buildRows_wf i.toNat rfl
  doneClear := fun _ => rfl
  tableFull := fun h => by cases h
  tableEmpty := fun _ h => absurd rfl (h i .checksum)
  tablePartial := by
    intro j c h
    cases h
    refine ⟨rfl, fun t ht j => ?_⟩
    have := i.isLt
    exact buildRows_entry (by omega) [] ht j
  crcHasTable := fun h => by cases h
  latched := fun _ => ⟨0, 0, 0, 0, crcInit, rfl, rfl, rfl, rfl, rfl, by decide, rfl,
    by simp [State.memSize, buildingChained, building, State.reset, Platform.default], by decide⟩

/-- A running CRC over a finished table meets the invariant when its range is split by the pointer and its memory is in
canonical form. -/
theorem running_inv {mem : Memory} {a len p n : Nat} {c : Word} (hm : mem.wf 32 = true) (h1 : a ≤ p)
    (h2 : p + n = a + len) (h3 : a < 2 ^ 32) (h4 : len < 2 ^ 32) : (running fullTable mem a len p n c).Inv where
  errLegal := by simp [running, State.reset]
  platformWf := by rfl
  bufAddrFits := by simp [running, State.reset, State.memSize, Platform.default]
  memWf := hm
  tableWf := fullTable_wf
  doneClear := fun _ => rfl
  tableFull := fun _ => fullTable_entry
  tableEmpty := fun h => by cases h
  tablePartial := fun i c h => by cases h
  crcHasTable := fun _ => rfl
  latched := fun _ => ⟨a, len, p, n, c, rfl, rfl, rfl, rfl, rfl, h1, h2, h3, h4⟩

/-- A ByteStep over a finished table answers a next state. -/
theorem running_engineStep {T : Table} (h : ∀ t < 16, ∀ i, T.entry t i = some (tableValue t i)) :
    ∃ t, engineStep (running T [(0, 0x61#8)] 0 1 0 1 crcInit) = .next t :=
  ⟨_, (show engineStep (running T [(0, 0x61#8)] 0 1 0 1 crcInit) = byteStep _ from rfl).trans
    ((byteStep_next_iff (s := running T [(0, 0x61#8)] 0 1 0 1 crcInit)).2
      ⟨0x61#8, _, rfl, byteCrc_of_entries (T := tableValue) (fun t ht i => h t ht i) _ _, rfl⟩)⟩

/-- A table that lists nothing, marked valid: for tests of steps that read no entry. -/
def marked : State := { State.reset with tableValid := true, done := true }

/-- STATUS after an outcome, where it is a next state. -/
def statusAfter (o : Host.Outcome State Fault Refusal) : Option Word :=
  match o with
  | .next t => some t.statusWord
  | .fault _ => none
  | .refused _ => none

/-! ### Dispatch (95_test_vectors.md V7) -/

theorem test_nop : statusAfter (exec .nop State.reset) = some 0x00000002#32 ∧
    statusAfter (exec .nop { marked with err := 2#3 }) = some 0x00000006#32 := by decide
theorem test_nop_busy : statusAfter (exec .nop (running [] [] 0 0 0 0 0#32)) = some 0x00000035#32 := by decide
theorem test_buildTable : statusAfter (exec .buildTable State.reset) = some 0x00000001#32 ∧
    statusAfter (exec .buildTable marked) = some 0x00000006#32 := by decide
theorem test_checksum : statusAfter (exec (.checksum true) marked) = some 0x00000005#32 ∧
    statusAfter (exec (.checksum true) State.reset) = some 0x00000001#32 := by decide
theorem test_checksum_absent : statusAfter (exec (.checksum false) State.reset) = some 0x00000012#32 ∧
    statusAfter (exec (.checksum false) marked) = some 0x00000016#32 := by decide
theorem test_invalidateTable : statusAfter (exec .invalidateTable marked) = some 0x00000002#32 ∧
    statusAfter (exec .invalidateTable { State.reset with phase := .build 3#8 .none }) = some 0x00000031#32 := by decide
theorem test_illegal :
    statusAfter (dispatchWord 0x00000004#32 marked) = some 0x00000026#32 ∧
    statusAfter (dispatchWord 0x00000101#32 marked) = some 0x00000026#32 ∧
    statusAfter (dispatchWord 0x00000100#32 marked) = some 0x00000026#32 ∧
    statusAfter (dispatchWord 0x80000002#32 marked) = some 0x00000026#32 ∧
    statusAfter (dispatchWord 0x00000202#32 marked) = some 0x00000026#32 ∧
    statusAfter (dispatchWord 0x000000FF#32 marked) = some 0x00000026#32 := by decide
/-- `withFetchWord` makes the very next step run the word. -/
theorem test_withFetchWord : statusAfter (step (State.reset.withFetchWord 32 0x00000002)) = some 0x00000012#32 := by decide

/-! ### Register accesses (R39 to R41, V7) -/

theorem test_read_cmd : performAccess ⟨1, 0x00, 32, .read⟩ marked = .next { marked with hostAnswer := some ⟨1, 0#32⟩ } := by
  rfl
theorem test_write_status : performAccess ⟨0, 0x04, 32, .write 0xFFFFFFFF#32⟩ marked = .next marked := by rfl
theorem test_write_result : performAccess ⟨0, 0x10, 32, .write 0xFFFFFFFF#32⟩ marked = .next marked := by rfl
theorem test_access_width : performAccess ⟨0, 0x04, 16, .read⟩ marked = .refused .mmioWidth := by rfl
theorem test_access_misaligned : performAccess ⟨0, 0x02, 32, .read⟩ marked = .refused .mmioMisaligned := by rfl
theorem test_access_atomic : performAccess ⟨0, 0x04, 32, .atomic⟩ marked = .refused .mmioAtomic := by rfl
/-- An access that begins below CRC_BASE and runs into the block is not one of the block's (log 8); one that begins in it and
runs past its end is refused by a name of R41. -/
theorem test_access_straddling :
    selectReg { crcBase := 0x20, addrW := 32 } ⟨0, 0x1E, 32, .read⟩ = .error (.outsideBlock 0x1E) ∧
    selectReg { crcBase := 0x20, addrW := 32 } ⟨0, 0x3E, 32, .read⟩ = .error .mmioMisaligned := by decide
/-- A host's load of a listed byte, and one past the top of memory (R11, R43). -/
theorem test_load : loadByte 1 0 built = .next { built with hostAnswer := some ⟨1, 0x61#32⟩ } ∧
    loadByte 1 0x100000000 built = .refused (.loadOutsideMemory 0x100000000) := ⟨rfl, rfl⟩

/-! ### Reduction, table entries and the formulas (V1 to V5) -/

theorem test_reduce1 : reduce1 0x80000000#32 = 0x40000000#32 ∧ reduce1 0xFFFFFFFF#32 = 0x92477CDF#32 := by decide
theorem test_tableValue : tableValue 0 0xFF#8 = 0x2D02EF8D#32 ∧ tableValue 4 0x80#8 = 0xB1E6B092#32 ∧
    tableValue 7 0x55#8 = 0x1DC6FDA2#32 ∧ tableValue 15 0xF0#8 = 0x839B5EED#32 := by decide +kernel
theorem test_buildStep : (buildRow 1#8 []).entry 0 1#8 = some 0x77073096#32 ∧
    (buildRow 1#8 []).entry 15 1#8 = some 0xAE689191#32 := by decide +kernel
theorem test_windowFormula : windowFormula 0x31311D77#32 (fun k => BitVec.ofNat 8 (16 + k.val)) = 0x6ED98175#32 ∧
    windowFormula 0x12345678#32 (fun _ => 0#8) = 0x6637C4A8#32 := by decide +kernel
/-- One ByteStep over a table that lists the one entry it needs: T[0][0xCE] of V2, the row of V4. -/
theorem test_byteStep :
    engineStep (running [(0xCE, 0x7CDCEFB7#32)] [(0x1000, 0x31#8)] 0x1000 9 0x1000 9 0xFFFFFFFF#32) =
      .next (running [(0xCE, 0x7CDCEFB7#32)] [(0x1000, 0x31#8)] 0x1000 9 0x1001 8 0x7C231048#32) := by rfl
/-- One FinalStep, a row of V5. -/
theorem test_finalStep :
    engineStep (running [] [] 0x1000 9 0x1009 0 0xBEB05CC6#32) =
      .next { running [] [] 0x1000 9 0x1009 0 0xBEB05CC6#32 with result := 0x414FA339#32, done := true, phase := .idle } := by
  rfl
/-- Rows of V6. -/
theorem test_checksumOf : checksumOf (fun k => BitVec.ofNat 8 k) 33 = 0xE4908305#32 ∧
    checksumOf (fun k => BitVec.ofNat 8 (0x31 + k)) 9 = 0xCBF43926#32 := by decide +kernel

/-! ### Faults (V8) -/

theorem test_addressWrap : step (running [] (bytesFrom 0xFFFFFFF8 (List.replicate 8 0#8)) 0xFFFFFFF8 16 0xFFFFFFF8 16 0#32) =
    .fault .addressWrap := by rfl
theorem test_undefinedAccess : step (running [] [] 0x1000 32 0x1010 16 0#32) = .fault (.undefinedAccess 0x1010) := by rfl
theorem test_hazard : storeByte 0x1008 0#8 (running [] [] 0x1000 9 0x1000 9 0#32) = .fault (.hazardBufferWrite 0x1008) ∧
    ∃ t, storeByte 0x1009 0#8 (running [] [] 0x1000 9 0x1000 9 0#32) = .next t := by
  exact ⟨rfl, _, rfl⟩

/-! ### Witnesses: the hypotheses of each obligation, met together -/

/-- Decoded words exist, and reserved fields at the ends of their ranges. -/
theorem test_witness_ReservedFieldsAreIllegal :
    decode 0x00000102#32 = .ok (.checksum true) ∧ 3 < ((0x00000004#32 : Word).extractLsb' 0 8).toNat ∧
    3 < ((0x000000FF#32 : Word).extractLsb' 0 8).toNat ∧ (0x00000202#32 : Word).extractLsb' 9 23 ≠ 0#23 ∧
    (0x80000002#32 : Word).extractLsb' 9 23 ≠ 0#23 := by decide

theorem test_witness_DecodeAndEncodeAgree : decode 0x00000002#32 = .ok (.checksum false) := by decide

/-- A busy and an idle state, and a word of each row and of none. -/
theorem test_witness_DispatchFollowsTheRows :
    (building 0#8 .none).phase ≠ .idle ∧ State.reset.phase = .idle ∧
    (0x00000102#32 : Word) &&& 0xFFFFFEFF#32 = 0x00000002#32 ∧ (0x00000002#32 : Word) &&& 0xFFFFFEFF#32 = 0x00000002#32 ∧
    (0x00000004#32 : Word) ≠ 0x00000000#32 ∧ (0x00000004#32 : Word) ≠ 0x00000001#32 ∧
    (0x00000004#32 : Word) &&& 0xFFFFFEFF#32 ≠ 0x00000002#32 ∧ (0x00000004#32 : Word) ≠ 0x00000003#32 := by
  refine ⟨(building_busy _ _), rfl, ?_⟩; decide

theorem test_witness_IllegalWordIsReported :
    State.reset.phase = .idle ∧ ∀ i, decode 0x00000101#32 ≠ .ok i := by
  refine ⟨rfl, fun i h => ?_⟩
  rw [show decode 0x00000101#32 = .error .reservedP by decide] at h
  cases h

theorem test_witness_StepTakesTheNextMove :
    State.reset.NoFault ∧ State.reset.agenda = [] ∧
    ({ State.reset with agenda := [.reset] } : State).NoFault ∧
    ({ State.reset with agenda := [.reset] } : State).agenda = .reset :: [] := ⟨⟨rfl, rfl⟩, rfl, ⟨rfl, rfl⟩, rfl⟩

theorem test_witness_StepRunsTheWrittenCommand :
    State.reset.NoFault ∧ decode 0x00000001#32 = .ok .buildTable ∧
    ({ State.reset with agenda := [cmdWrite State.reset.platform 7 0x00000001#32] } : State).agenda =
      cmdWrite State.reset.platform 7 0x00000001#32 :: [] := ⟨⟨rfl, rfl⟩, by decide, rfl⟩

/-- Each of the four clauses. -/
theorem test_witness_OneConditionIsReported :
    (building 0#8 .none).phase ≠ .idle ∧ (State.reset.phase = .idle ∧ ∀ i, decode 0x00000004#32 ≠ .ok i) ∧
    decode 0x00000002#32 = .ok (.checksum false) ∧
    (decode 0x00000102#32 = .ok (.checksum true) ∧ Instr.checksum true ≠ .checksum false) := by
  refine ⟨(building_busy _ _), ⟨rfl, fun i h => ?_⟩, by decide, by decide, by decide⟩
  rw [show decode 0x00000004#32 = .error .reservedOp by decide] at h
  cases h

theorem test_witness_NopOnlyClearsStatus :
    State.reset.phase = .idle ∧ (building 0#8 .none).phase ≠ .idle ∧
    ((0x00000100#32 : Word).extractLsb' 0 8 = 0#8 ∧ (0x00000100#32 : Word).getLsbD 8 = true) ∧
    ((0x80000000#32 : Word).extractLsb' 0 8 = 0#8 ∧ (0x80000000#32 : Word).extractLsb' 9 23 ≠ 0#23) ∧
    ({ marked with err := 1#3 } : State).phase = .idle ∧ ({ marked with err := 1#3 } : State).statusWord = 0x00000016#32 := by
  refine ⟨rfl, (building_busy _ _), ?_⟩; decide

/-- The idle engine with a table and without, and the busy engine: for BUILD_TABLE and CHECKSUM alike. -/
theorem test_witness_BuildTableStartsOrFinishes :
    (built.phase = .idle ∧ built.tableValid = true) ∧ (State.reset.phase = .idle ∧ State.reset.tableValid = false) ∧
    (building 0#8 .none).phase ≠ .idle := ⟨⟨rfl, rfl⟩, ⟨rfl, rfl⟩, building_busy _ _⟩

theorem test_witness_ChecksumStarts :
    (built.phase = .idle ∧ built.tableValid = true) ∧ (State.reset.phase = .idle ∧ State.reset.tableValid = false) ∧
    (building 0#8 .none).phase ≠ .idle := ⟨⟨rfl, rfl⟩, ⟨rfl, rfl⟩, building_busy _ _⟩

theorem test_witness_InvalidateTableEmptiesTheTable :
    (marked.phase = .idle ∧ marked.statusWord = 0x00000006#32) ∧ (building 0#8 .none).phase ≠ .idle :=
  ⟨by decide, building_busy _ _⟩

theorem test_witness_AbsentBufferIsReported : State.reset.phase = .idle := rfl

/-- An idle state; an engine step to a next state and one to a fault. -/
theorem test_witness_OperandsAreLatchedAtAcceptance :
    built.phase = .idle ∧ engineStep State.reset = .next State.reset ∧
    engineStep (running [] [] 0x1000 32 0x1010 16 0#32) = .fault (.undefinedAccess 0x1010) :=
  ⟨rfl, rfl, rfl⟩

theorem test_witness_CommandsKeepTheRest :
    (∃ t, exec .invalidateTable built = .next t) ∧ (∃ t, exec (.checksum true) built = .next t) ∧
    (∃ t, exec .nop (building 0#8 .none) = .next t) ∧ (building 0#8 .none).phase ≠ .idle :=
  ⟨⟨_, rfl⟩, ⟨_, rfl⟩, ⟨_, rfl⟩, building_busy _ _⟩

theorem test_witness_StatusWordLayout :
    marked.phase = .idle ∧ marked.tableValid = true ∧ marked.done = true ∧ marked.err = 0#3 := by decide

theorem test_witness_HostWritesDo :
    State.reset.platform.addrW = 32 ∧ engineStep State.reset = .next State.reset := ⟨rfl, rfl⟩

theorem test_witness_BufAddrKeepsItsWidth :
    State.reset.platform.addrW = 32 ∧
    truncAddr { crcBase := 0, addrW := 16 } 0xABCD1234#32 = 0x00001234#32 ∧
    truncAddr { crcBase := 0, addrW := 1 } 0xFFFFFFFF#32 = 1#32 := by decide

/-- An access inside the block for each clause, at the ends of the block; and a step that is refused. -/
theorem test_witness_MalformedAccessesAreRefused :
    (∀ a ∈ [(⟨0, 0, 16, .read⟩ : HostAccess), ⟨0, 0x1C, 64, .write 0#32⟩], 0 ≤ a.addr ∧ a.addr < 0 + 32 ∧ a.bits ≠ 32 ∧
      (a.addr - 0) % 4 = 0 ∧ a.kind ≠ .atomic) ∧
    (∀ a ∈ [(⟨0, 1, 32, .read⟩ : HostAccess), ⟨0, 0x1F, 32, .read⟩], 0 ≤ a.addr ∧ a.addr < 0 + 32 ∧ a.bits = 32 ∧
      (a.addr - 0) % 4 ≠ 0 ∧ a.kind ≠ .atomic) ∧
    (∀ a ∈ [(⟨0, 0, 32, .atomic⟩ : HostAccess), ⟨0, 0x1C, 32, .atomic⟩], 0 ≤ a.addr ∧ a.addr < 0 + 32 ∧ a.bits = 32 ∧
      (a.addr - 0) % 4 = 0 ∧ a.kind = .atomic) ∧
    (∀ a ∈ [(⟨0, 0, 32, .read⟩ : HostAccess), ⟨0, 0x1C, 32, .read⟩], 0 ≤ a.addr ∧ a.addr < 0 + 32 ∧ a.bits = 32 ∧
      (a.addr - 0) % 4 = 0 ∧ a.kind ≠ .atomic) ∧
    step { State.reset with agenda := [.access ⟨0, 2, 16, .atomic⟩] } = .refused .mmioWidth := by
  refine ⟨by decide, by decide, by decide, by decide, rfl⟩

theorem test_witness_ReadsHaveNoSideEffects :
    (∃ t, performAccess ⟨0, 0x04, 32, .read⟩ built = .next t) ∧
    (selectReg built.platform ⟨0, 0x08, 32, .write 5#32⟩ ≠ .ok .cmd ∧
      ∃ t, performAccess ⟨0, 0x08, 32, .write 5#32⟩ built = .next t) := ⟨⟨_, rfl⟩, by decide, _, rfl⟩

theorem test_witness_HostsAreAlike :
    (∃ t, performAccess ⟨0, 0x04, 32, .read⟩ built = .next t) ∧
    ∃ t, performAccess ⟨0, 0x00, 32, .write 1#32⟩ State.reset = .next t := ⟨⟨_, rfl⟩, _, rfl⟩

/-- A poll of the busy engine and of the idle one. -/
theorem test_witness_WaitIdlePollsUntilIdle :
    (({ building 0#8 .none with agenda := [.waitIdle 3] } : State).NoFault ∧
      ({ building 0#8 .none with agenda := [.waitIdle 3] } : State).agenda = .waitIdle 3 :: [] ∧
      ({ building 0#8 .none with agenda := [.waitIdle 3] } : State).phase ≠ .idle) ∧
    (({ State.reset with agenda := [.waitIdle 3] } : State).NoFault ∧
      ({ State.reset with agenda := [.waitIdle 3] } : State).agenda = .waitIdle 3 :: [] ∧
      ({ State.reset with agenda := [.waitIdle 3] } : State).phase = .idle) :=
  ⟨⟨⟨rfl, rfl⟩, rfl, building_busy _ _⟩, ⟨rfl, rfl⟩, rfl, rfl⟩

theorem test_witness_OnlyStoresChangeMemory :
    ∃ t, step { State.reset with agenda := [.store 5 1#8] } = .next t ∧
      t.mem ≠ ({ State.reset with agenda := [.store 5 1#8] } : State).mem := ⟨_, rfl, by decide⟩

/-- The first and the last address of the latched range. -/
theorem test_witness_StoreIntoTheRangeFaults : ∀ x ∈ [0x1000, 0x1008],
    ({ running [] [] 0x1000 9 0x1003 6 0#32 with agenda := [.store x 0#8] } : State).ChecksumRunning ∧
    0x1000 ≤ x ∧ x < 0x1000 + 9 ∧ x < (running [] [] 0x1000 9 0x1003 6 0#32).memSize ∧
    ({ running [] [] 0x1000 9 0x1003 6 0#32 with agenda := [.store x 0#8] } : State).NoFault ∧
    ({ running [] [] 0x1000 9 0x1003 6 0#32 with agenda := [.store x 0#8] } : State).NextMove (.store x 0#8) := by
  intro x hx
  have hx' : x = 0x1000 ∨ x = 0x1008 := by simpa using hx
  refine ⟨.inl rfl, by omega, by omega, ?_, ⟨rfl, rfl⟩, _, rfl⟩
  have : (running [] [] 0x1000 9 0x1003 6 0#32).memSize = 2 ^ 32 := rfl
  omega

/-- The neighbours of the latched range, the top of memory with no CHECKSUM running, and a byte that is listed. -/
theorem test_witness_StoreElsewhereAndLoadAreServed :
    (∀ x ∈ [0x0FFF, 0x1009], x < (running [] [] 0x1000 9 0x1003 6 0#32).memSize ∧
      (running [] [] 0x1000 9 0x1003 6 0#32).addr0 = some 0x1000 ∧ (running [] [] 0x1000 9 0x1003 6 0#32).len0 = some 9 ∧
      ¬ (0x1000 ≤ x ∧ x < 0x1000 + 9)) ∧
    (0xFFFFFFFF < State.reset.memSize ∧ ¬ State.reset.ChecksumRunning) ∧
    (0 < built.memSize ∧ built.mem.read 0 = some 0x61#8) := by
  refine ⟨?_, ⟨by decide, ?_⟩, by decide, rfl⟩
  · decide
  · rintro (h | ⟨i, h⟩) <;> cases h

/-- A launch that fills its buffer of one byte before the CMD write. -/
def launch : State :=
  { State.reset with
    bufAddr := 0x1000#32, bufLen := 1#32, agenda := [.store 0x1000 0x61#8, cmdWrite .default 0 0x00000102#32] }

/-- Its one store comes while the engine is idle, so every buffer is stable in its run. -/
theorem launch_bufferStable (a n : Nat) : launch.BufferStable a n := by
  intro k t x b h hc _ _ ⟨rest, hm⟩
  match k with
  | 0 =>
    cases h
    rcases hc with hc | ⟨i, hc⟩ <;> cases hc
  | 1 => cases h; cases hm
  | k + 2 =>
    have hz : t.agenda = [] := steps_agenda_nil rfl ((steps_add (m := 2) k (s := launch) rfl).symm.trans
      ((congrArg (fun n => steps n launch) (Nat.add_comm 2 k)).trans h))
    rw [hm] at hz
    cases hz

/-- A host that starts a build while another reads STATUS. -/
def twoHosts : State :=
  { State.reset with agenda := [cmdWrite .default 0 0x00000001#32, .access ⟨1, 0x04, 32, .read⟩] }

theorem twoHosts_serialised : twoHosts.HostsSerialised := by
  intro i t c w m u a r v h ⟨⟨rest, hc⟩, hk, _⟩ h' _ ⟨⟨rest', ha⟩, hka, _⟩
  have late : ∀ k q, steps (k + 2) twoHosts = .next q → q.agenda = [] := fun k q hq =>
    steps_agenda_nil rfl ((steps_add (m := 2) k (s := twoHosts) rfl).symm.trans
      ((congrArg (fun n => steps n twoHosts) (Nat.add_comm 2 k)).trans hq))
  have hu := (steps_add m h).trans h'
  match i, m with
  | 0, 0 => cases h; cases h'; cases hc; cases ha; rfl
  | 0, 1 => cases h; cases h'; cases ha; cases hka
  | 1, 0 => cases h; cases h'; cases ha; cases hka
  | i + 2, _ => rw [late _ _ h] at hc; cases hc
  | 0, m + 2 => rw [late _ _ ((congrArg (fun n => steps n twoHosts) (Nat.zero_add (m + 2)).symm).trans hu)] at ha; cases ha
  | 1, m + 1 =>
    rw [late m _ ((congrArg (fun n => steps n twoHosts) (show m + 2 = 1 + (m + 1) by omega)).trans hu)] at ha
    cases ha

/-- A launch with a store into its own buffer before CMD; a step of a running CHECKSUM with a stable range; and two hosts,
one of which only reads. -/
theorem test_witness_LaunchPremisesProtectTheOperation :
    (launch.Inv ∧ launch.NoFault ∧ ∀ a n, launch.BufferStable a n) ∧
    (∃ t, steps 2 launch = .next t ∧ t.ChecksumRunning ∧ t.addr0 = some 0x1000 ∧ t.len0 = some 1) ∧
    ∃ (u v : State) (c a : HostAccess), twoHosts.HostsSerialised ∧ steps 0 twoHosts = .next twoHosts ∧
      twoHosts.HostWrites c .cmd 0x00000001#32 ∧ steps 1 twoHosts = .next u ∧ twoHosts.NotSeenIdle 1 ∧
      u.NextMove (.access a) ∧ a.host ≠ c.host ∧ step u = .next v := by
  refine ⟨⟨idle_inv _ 1#32 rfl _, ⟨rfl, rfl⟩, launch_bufferStable⟩, ⟨_, rfl, .inr ⟨0#8, rfl⟩, rfl, rfl⟩,
    _, _, ⟨0, 0, 32, .write 0x00000001#32⟩, ⟨1, 0x04, 32, .read⟩, twoHosts_serialised, rfl, ⟨⟨_, rfl⟩, rfl, rfl⟩, rfl, ?_,
    ⟨_, rfl⟩, by decide, rfl⟩
  · intro l hl q hq
    obtain rfl : l = 0 := Nat.lt_one_iff.1 hl
    cases hq
    rintro ⟨-, ⟨h, rest, hm⟩ | ⟨a, ⟨rest, hm⟩, hk, -⟩⟩
    · cases hm
    · cases hm; cases hk

/-- A running CHECKSUM, a memory that differs outside its range, and a step of each kind. -/
theorem test_witness_EngineReadsOnlyTheLatchedRange :
    ((running fullTable [(0, 0x61#8)] 0 1 0 1 crcInit).Inv ∧
      (∀ k < 1, Cells.read [(0, 0x61#8), (9, 0#8)] (0 + k) = (running fullTable [(0, 0x61#8)] 0 1 0 1 crcInit).mem.read (0 + k)) ∧
      ∃ t, engineStep (running fullTable [(0, 0x61#8)] 0 1 0 1 crcInit) = .next t) ∧
    ((running fullTable [] 0 1 0 1 crcInit).Inv ∧
      engineStep (running fullTable [] 0 1 0 1 crcInit) = .fault (.undefinedAccess 0)) := by
  refine ⟨⟨running_inv (by decide) (by decide) (by decide) (by decide) (by decide), by decide, ?_⟩,
    running_inv (by decide) (by decide) (by decide) (by decide) (by decide), ?_⟩
  · exact running_engineStep fullTable_entry
  · rfl

theorem test_witness_SliceRecurrence : 1 ≤ 1 ∧ 1 ≤ 15 := by decide

/-- The first, the last but one and the last index. -/
theorem test_witness_BuildMicroStep :
    ((building 0#8 .none).phase = .build 0#8 .none ∧ (0#8).toNat < 255) ∧
    ((building 254#8 .none).phase = .build 254#8 .none ∧ (254#8).toNat < 255) ∧
    ((building 255#8 .checksum).phase = .build 255#8 .checksum ∧ (255#8).toNat = 255) :=
  ⟨⟨rfl, by decide⟩, ⟨rfl, by decide⟩, rfl, by decide⟩

theorem test_witness_BuildCompletion :
    ((building 255#8 .none).Inv ∧ (building 255#8 .none).phase = .build 255#8 .none) ∧
    ((buildingChained 255#8).Inv ∧ (buildingChained 255#8).phase = .build 255#8 .checksum) :=
  ⟨⟨building_inv _, rfl⟩, buildingChained_inv _, rfl⟩

theorem test_witness_BuildRunFillsTheTable :
    State.reset.NoFault ∧ State.reset.EngineAlone ∧ State.reset.Idle ∧ State.reset.tableValid = false :=
  ⟨⟨rfl, rfl⟩, rfl, rfl, rfl⟩

/-- A table write by each of the three writers. -/
theorem test_witness_OnlyTheBuilderWritesTheTable :
    (∃ t, step { State.reset with phase := .build 0#8 .none } = .next t ∧ t.table ≠ []) ∧
    (∃ t, step { State.reset with table := [(0, 0#32)], agenda := [cmdWrite .default 0 3#32] } = .next t ∧
      t.table ≠ [(0, 0#32)]) ∧
    (∃ t, step { State.reset with table := [(0, 0#32)], agenda := [.reset] } = .next t ∧ t.table ≠ [(0, 0#32)]) := by
  refine ⟨⟨_, rfl, by decide +kernel⟩, ⟨_, rfl, ?_⟩, _, rfl, by decide⟩
  intro h; cases h

/-- TABLE_VALID changes in each of the three ways. -/
theorem test_witness_TableValidChangesOnly :
    (built.Inv ∧ built.tableValid = true) ∧ (building 255#8 .none).phase = .build 255#8 .none ∧
    (∃ t, step { State.reset with phase := .build 255#8 .none } = .next t ∧ t.tableValid ≠ false) ∧
    (∃ t, step { marked with agenda := [cmdWrite .default 0 3#32] } = .next t ∧ t.tableValid ≠ true) ∧
    (∃ t, step { marked with agenda := [.reset] } = .next t ∧ t.tableValid ≠ true) := by
  refine ⟨⟨built_inv, rfl⟩, rfl, ⟨_, rfl, ?_⟩, ⟨_, rfl, ?_⟩, _, rfl, ?_⟩ <;> intro h <;> cases h

theorem test_witness_BuildCannotFail : (building 255#8 .none).phase = .build 255#8 .none := rfl

/-- The boundary values of `rem`. -/
theorem test_witness_SequencerChoosesByRem : ∀ n ∈ [16, 15, 1, 0],
    (running fullTable [] 0 n 0 n 0#32).phase = .crc ∧ (running fullTable [] 0 n 0 n 0#32).rem = some n :=
  fun _ _ => ⟨rfl, rfl⟩

/-- The last window of memory. -/
theorem test_witness_WindowMicroStep :
    ∃ (s : State) (b : Fin 16 → Byte), s.phase = .crc ∧ s.crc = some crcInit ∧ s.ptr = some 0xFFFFFFF0 ∧ s.rem = some 16 ∧
      s.tableValid = true ∧ (∀ k < 16, ∀ i, s.table.entry k i = some (tableValue k i)) ∧ 0xFFFFFFF0 + 16 ≤ s.memSize ∧
      ∀ k : Fin 16, s.mem.read (0xFFFFFFF0 + k.val) = some (b k) :=
  ⟨running fullTable (bytesFrom 0xFFFFFFF0 (List.replicate 16 0xAB#8)) 0xFFFFFFF0 16 0xFFFFFFF0 16 crcInit, fun _ => 0xAB#8,
    rfl, rfl, rfl, rfl, rfl, fullTable_entry, Nat.le_refl _, by decide⟩

/-- The last window of memory again, for the sixteen ByteSteps. -/
theorem test_witness_SliceBySixteenIsBytewise :
    ∃ s : State, s.tableValid = true ∧ (∀ k < 16, ∀ i, s.table.entry k i = some (tableValue k i)) ∧
      s.ptr = some 0xFFFFFFF0 ∧ s.rem = some 16 ∧ 16 ≤ 16 ∧ 0xFFFFFFF0 + 16 ≤ s.memSize ∧
      ∀ k < 16, s.mem.read (0xFFFFFFF0 + k) ≠ none :=
  ⟨running fullTable (bytesFrom 0xFFFFFFF0 (List.replicate 16 0xAB#8)) 0xFFFFFFF0 16 0xFFFFFFF0 16 crcInit,
    rfl, fullTable_entry, rfl, rfl, Nat.le_refl _, Nat.le_refl _, by decide⟩

/-- The last byte of memory, and `rem` at both ends. -/
theorem test_witness_ByteMicroStep : ∀ n ∈ [1, 15],
    ∃ s : State, s.phase = .crc ∧ s.crc = some crcInit ∧ s.ptr = some 0xFFFFFFFF ∧ s.rem = some n ∧ 1 ≤ n ∧ n ≤ 15 ∧
      s.tableValid = true ∧ (∀ i, s.table.entry 0 i = some (tableValue 0 i)) ∧ 0xFFFFFFFF < s.memSize ∧
      s.mem.read 0xFFFFFFFF = some 0x61#8 := by
  intro n hn
  have hn' : n = 1 ∨ n = 15 := by simpa using hn
  exact ⟨running fullTable [(0xFFFFFFFF, 0x61#8)] 0xFFFFFFFF n 0xFFFFFFFF n crcInit, rfl, rfl, rfl, rfl, by omega, by omega,
    rfl, fullTable_entry 0 (by decide), show 0xFFFFFFFF < 2 ^ 32 by decide, rfl⟩

theorem test_witness_FinalMicroStep :
    (running fullTable [] 0 0 0 0 0x340BC6D9#32).phase = .crc ∧ (running fullTable [] 0 0 0 0 0x340BC6D9#32).rem = some 0 ∧
    (running fullTable [] 0 0 0 0 0x340BC6D9#32).crc = some 0x340BC6D9#32 := ⟨rfl, rfl, rfl⟩

/-- A window that wraps at its ninth byte, a tail byte at the wrap, and a window whose last byte is not admitted. -/
theorem test_witness_ReadFaultsComeInAddressOrder :
    (∃ s : State, s.NoFault ∧ s.EngineAlone ∧ s.Inv ∧ s.phase = .crc ∧ s.ptr = some 0xFFFFFFF8 ∧ s.rem = some 16 ∧
      (∀ k < 8, 0xFFFFFFF8 + k < s.memSize ∧ s.mem.read (0xFFFFFFF8 + k) ≠ none) ∧ s.memSize ≤ 0xFFFFFFF8 + 8) ∧
    (∃ s : State, s.NoFault ∧ s.EngineAlone ∧ s.Inv ∧ s.phase = .crc ∧ s.ptr = some 0x100000000 ∧ s.rem = some 1 ∧
      s.memSize ≤ 0x100000000 + 0) ∧
    (∃ s : State, s.NoFault ∧ s.EngineAlone ∧ s.Inv ∧ s.phase = .crc ∧ s.ptr = some 0x1000 ∧ s.rem = some 16 ∧
      (∀ k < 15, 0x1000 + k < s.memSize ∧ s.mem.read (0x1000 + k) ≠ none) ∧ 0x1000 + 15 < s.memSize ∧
      s.mem.read (0x1000 + 15) = none) := by
  refine ⟨⟨running fullTable (bytesFrom 0xFFFFFFF8 (List.replicate 8 0#8)) 0xFFFFFFF8 16 0xFFFFFFF8 16 crcInit, ⟨rfl, rfl⟩, rfl,
      running_inv (by decide) (by decide) (by decide) (by decide) (by decide), rfl, rfl, rfl, ?_, by decide⟩,
    ⟨running fullTable [] 0xFFFFFFF8 9 0x100000000 1 crcInit, ⟨rfl, rfl⟩, rfl,
      running_inv (by decide) (by decide) (by decide) (by decide) (by decide), rfl, rfl, rfl, by decide⟩,
    ⟨running fullTable (bytesFrom 0x1000 (List.replicate 15 0#8)) 0x1000 16 0x1000 16 crcInit, ⟨rfl, rfl⟩, rfl,
      running_inv (by decide) (by decide) (by decide) (by decide) (by decide), rfl, rfl, rfl, ?_, by decide, by decide⟩⟩ <;>
  decide

theorem test_witness_UnbuiltTableIsNeverRead : (running fullTable [] 0 1 0 1 crcInit).Inv ∧ State.reset.phase = .idle :=
  ⟨running_inv (by decide) (by decide) (by decide) (by decide) (by decide), rfl⟩

theorem test_witness_ChecksumRunComputesTheFunction :
    built.NoFault ∧ built.EngineAlone ∧ built.Idle ∧ built.Inv ∧ built.tableValid = true ∧
    built.HoldsBuffer built.bufAddr.toNat built.bufLen.toNat (fun _ => 0x61#8) := by
  refine ⟨⟨rfl, rfl⟩, rfl, rfl, built_inv, rfl, by decide, ?_⟩
  intro k hk
  obtain rfl : k = 0 := Nat.lt_one_iff.1 hk
  rfl

theorem test_witness_FirstUseChecksumRun :
    ∃ s : State, s.NoFault ∧ s.EngineAlone ∧ s.Idle ∧ s.tableValid = false ∧
      s.HoldsBuffer s.bufAddr.toNat s.bufLen.toNat (fun _ => 0x61#8) := by
  refine ⟨{ State.reset with mem := [(0xFFFFFFFF, 0x61#8)], bufAddr := 0xFFFFFFFF#32, bufLen := 1#32 }, ⟨rfl, rfl⟩, rfl, rfl,
    rfl, by decide, ?_⟩
  intro k hk
  obtain rfl : k = 0 := Nat.lt_one_iff.1 hk
  rfl

theorem test_witness_FirstUseIsBuildThenChecksum :
    State.reset.NoFault ∧ State.reset.EngineAlone ∧ State.reset.Idle ∧ State.reset.tableValid = false :=
  ⟨⟨rfl, rfl⟩, rfl, rfl, rfl⟩

theorem test_witness_EmptyBufferChecksum :
    (State.reset.NoFault ∧ State.reset.EngineAlone ∧ State.reset.Idle ∧ State.reset.bufLen = 0#32) ∧
    (marked.NoFault ∧ marked.EngineAlone ∧ marked.Idle ∧ marked.bufLen = 0#32 ∧ marked.tableValid = true) :=
  ⟨⟨⟨rfl, rfl⟩, rfl, rfl, rfl⟩, ⟨rfl, rfl⟩, rfl, rfl, rfl, rfl⟩

/-- RESULT changes at a FinalStep and at reset. -/
theorem test_witness_ResultChangesOnlyAtTheFinalStep :
    (∃ t, step (running [] [] 0 0 0 0 0#32) = .next t ∧ t.result ≠ (running [] [] 0 0 0 0 0#32).result) ∧
    (∃ t, step { State.reset with result := 5#32, agenda := [.reset] } = .next t ∧ t.result ≠ 5#32) ∧
    (running fullTable [] 0 0 0 0 0#32).Inv :=
  ⟨⟨_, rfl, by decide⟩, ⟨_, rfl, by decide⟩, running_inv (by decide) (by decide) (by decide) (by decide) (by decide)⟩

theorem test_witness_ErrIsClearedByTheNextCommand :
    (built.phase = .idle ∧ built.tableValid = true ∧ Instr.nop ≠ .checksum false) ∧
    (∃ t, engineStep { building 0#8 .none with err := 3#3 } = .next t) ∧
    ((building 0#8 .none).phase ≠ .idle ∧ ∃ t, dispatchWord 0#32 (building 0#8 .none) = .next t) :=
  ⟨⟨rfl, rfl, by decide⟩, ⟨_, rfl⟩, (building_busy _ _), _, rfl⟩

theorem test_witness_IdleEngineRests :
    State.reset.phase = .idle ∧ State.reset.NoFault ∧ State.reset.EngineAlone := ⟨rfl, ⟨rfl, rfl⟩, rfl⟩

theorem test_witness_ResetGivesTheResetValues :
    ({ running fullTable [] 0 1 0 1 crcInit with agenda := [.reset] } : State).NoFault ∧
    ({ running fullTable [] 0 1 0 1 crcInit with agenda := [.reset] } : State).agenda = .reset :: [] := ⟨⟨rfl, rfl⟩, rfl⟩

theorem test_witness_FaultsAreTerminal :
    ({ State.reset with fault := some .addressWrap } : State).fault = some .addressWrap ∧
    step (running [] [] 0x1000 32 0x1010 16 0#32) = .fault (.undefinedAccess 0x1010) := ⟨rfl, rfl⟩

/-- A step of an invariant state in the CRC phase, with the accumulator true. -/
theorem test_witness_StepKeepsTheInvariant :
    (running fullTable [(0, 0x61#8)] 0 1 0 1 crcInit).Inv ∧ (running fullTable [(0, 0x61#8)] 0 1 0 1 crcInit).CrcTracksMemory ∧
    ∃ t, step (running fullTable [(0, 0x61#8)] 0 1 0 1 crcInit) = .next t := by
  refine ⟨running_inv (by decide) (by decide) (by decide) (by decide) (by decide),
    fun _ => ⟨0, 0, fun _ => 0#8, rfl, rfl, fun k hk => absurd hk (Nat.not_lt_zero k), rfl⟩, ?_⟩
  obtain ⟨t, h⟩ := running_engineStep fullTable_entry
  exact ⟨t, (step_of_engineAlone (s := running fullTable [(0, 0x61#8)] 0 1 0 1 crcInit) ⟨rfl, rfl⟩ rfl).trans h⟩

theorem test_witness_StepKeepsTheAccumulatorTrue :
    ∃ s t : State, s.Inv ∧ s.CrcTracksMemory ∧ step s = .next t :=
  let ⟨h1, h2, t, h3⟩ := test_witness_StepKeepsTheInvariant
  ⟨_, t, h1, h2, h3⟩

theorem test_witness_FinalStepStoresTheRangeChecksum :
    ∃ s : State, s.Inv ∧ s.CrcTracksMemory ∧ s.phase = .crc ∧ s.rem = some 0 ∧ s.fault = none := by
  refine ⟨running fullTable [(0, 0x61#8)] 0 1 1 0 (bytewiseFrom crcInit (fun _ => 0x61#8) 1),
    running_inv (by decide) (by decide) (by decide) (by decide) (by decide),
    fun _ => ⟨0, 1, fun _ => 0x61#8, rfl, rfl, ?_, rfl⟩, rfl, rfl, rfl⟩
  intro k hk
  obtain rfl : k = 0 := Nat.lt_one_iff.1 hk
  rfl

/-- With a finished table, and with none at the top of memory. -/
theorem test_witness_CrcProgramDeliversTheChecksum :
    (built.NoFault ∧ built.EngineAlone ∧ built.Idle ∧ built.Inv ∧ built.tableValid = true ∧
      (0#32 : Word).toNat < built.memSize ∧ built.HoldsBuffer (0#32 : Word).toNat (1#32 : Word).toNat (fun _ => 0x61#8)) ∧
    ∃ s : State, s.NoFault ∧ s.EngineAlone ∧ s.Idle ∧ s.Inv ∧ s.tableValid = false ∧
      (0xFFFFFFFF#32 : Word).toNat < s.memSize ∧
      s.HoldsBuffer (0xFFFFFFFF#32 : Word).toNat (1#32 : Word).toNat (fun _ => 0x61#8) := by
  refine ⟨⟨⟨rfl, rfl⟩, rfl, rfl, built_inv, rfl, by decide, by decide, ?_⟩,
    { State.reset with mem := [(0xFFFFFFFF, 0x61#8)] }, ⟨rfl, rfl⟩, rfl, rfl, idle_inv 0#32 0#32 (by decide) [], rfl, by decide,
      by decide, ?_⟩
  · intro k hk
    obtain rfl : k = 0 := Nat.lt_one_iff.1 hk
    rfl
  · intro k hk
    obtain rfl : k = 0 := Nat.lt_one_iff.1 hk
    rfl

end Sys2Proof.Tests
end

/-! Proofs of the statements on scope: whose move a step is (R11), which moves change system memory (R3, R43, R52), which
accesses to it are served (R54), and that a fault ends the run (R12, R119). -/

namespace Sys2Proof.Machine

/-! ### What leaves memory alone (R3) -/

/-- No command stores to memory. -/
theorem commandBody_mem (i : Instr) (s : State) : (commandBody i s).mem = s.mem := by
  obtain ⟨-, h⟩ | ⟨-, -, h⟩ | ⟨-, -, h⟩ | ⟨-, h⟩ | ⟨-, -, h⟩ | ⟨-, -, h⟩ | ⟨-, h⟩ := commandBody_cases i s <;> simp [h]

theorem dispatchWord_mem {w : Word} {s t : State} (h : dispatchWord w s = .next t) : t.mem = s.mem := by
  obtain ⟨-, rfl⟩ | ⟨-, i, -, rfl⟩ | ⟨-, -, rfl⟩ := dispatchWord_cases h
  · simp
  · simp [commandBody_mem]
  · simp

theorem performAccess_mem {a : HostAccess} {s t : State} (h : performAccess a s = .next t) : t.mem = s.mem := by
  obtain ⟨r, -, rfl⟩ | ⟨w, -, -, hd⟩ | ⟨w, -, rfl⟩ | ⟨w, -, rfl⟩ | ⟨w, -, rfl⟩ := performAccess_cases h
  case inr.inl => exact dispatchWord_mem hd
  all_goals rfl

theorem loadByte_mem {host a : Nat} {s t : State} (h : loadByte host a s = .next t) : t.mem = s.mem := by
  obtain ⟨-, ⟨b, -, rfl⟩ | ⟨-, rfl⟩⟩ := loadByte_cases h <;> rfl

theorem pollStatus_mem (host : Nat) (s : State) : (pollStatus host s).mem = s.mem := by
  obtain ⟨-, h⟩ | ⟨-, h⟩ := pollStatus_cases host s <;> simp [h]

/-- The engine never stores to memory. -/
theorem engineStep_mem {s t : State} (h : engineStep s = .next t) : t.mem = s.mem := by
  obtain ⟨-, -, -, -, -, -, -, -, hmem, -⟩ := engineStep_frame h
  exact hmem

/-- A move that changes memory is a store, and the new memory is the old one with the stored byte written. -/
theorem perform_mem {m : Move} {s t : State} (h : perform m s = .next t) :
    t.mem = s.mem ∨ ∃ a b, m = .store a b ∧ t.mem = Cells.write s.mem a b := by
  cases m with
  | engine => exact .inl (engineStep_mem h)
  | access a => exact .inl (performAccess_mem h)
  | load host a => exact .inl (loadByte_mem h)
  | store a b =>
    obtain ⟨-, -, rfl⟩ := storeByte_next_iff.1 h
    exact .inr ⟨a, b, rfl, rfl⟩
  | waitIdle host => cases h; exact .inl (pollStatus_mem host s)
  | reset => cases h; exact .inl rfl

/-- A step that changes memory performs a store that stands next on the agenda. -/
theorem step_mem {s t : State} (h : step s = .next t) :
    t.mem = s.mem ∨ ∃ a b, s.NextMove (.store a b) ∧ t.mem = Cells.write s.mem a b := by
  obtain ⟨-, -, ⟨-, he⟩ | ⟨m, rest, ha, hp⟩⟩ := step_cases h
  · exact .inl (engineStep_mem he)
  · obtain hmem | ⟨a, b, rfl, hmem⟩ := perform_mem hp
    · exact .inl hmem
    · exact .inr ⟨a, b, ⟨rest, ha⟩, hmem⟩

/-! ### Stores and loads that are served (R11, R52, R54) -/

/-- With no CHECKSUM running no byte is hazardous, and with one running none outside the latched range is (R54). -/
theorem State.inLatchedRange_eq_false {s : State} {x : Nat}
    (h : ¬ s.ChecksumRunning ∨ ∃ a len, s.addr0 = some a ∧ s.len0 = some len ∧ ¬ (a ≤ x ∧ x < a + len)) :
    s.inLatchedRange x = false := by
  rw [← Bool.not_eq_true, s.inLatchedRange_eq_true_iff]
  rintro ⟨hrun, hrange⟩
  obtain hidle | ⟨a, len, ha, hlen, hout⟩ := h
  · exact hidle hrun
  · rw [State.addr0Value_some ha, State.len0Value_some hlen] at hrange
    exact hout hrange

/-- The engine reads a byte that was written (R52). -/
theorem State.memRead_write_same {s : State} {x : Nat} (b : Byte) (hx : x < s.memSize) :
    State.memRead { s with mem := Cells.write s.mem x b } x = .ok b :=
  State.memRead_eq_ok_iff.2 ⟨hx, Cells.read_write_same s.mem x b⟩

/-- What the engine reads at an address depends on the byte held there and on the platform alone (R44, R45). -/
theorem State.memRead_congr {s t : State} {x : Nat} (hmem : t.mem.read x = s.mem.read x)
    (hplat : t.platform = s.platform) : t.memRead x = s.memRead x := by
  have hsize : t.memSize = s.memSize := by rw [State.memSize, State.memSize, hplat]
  unfold State.memRead
  rw [hmem, hsize]

/-- The engine reads every other byte as before. -/
theorem State.memRead_write_of_ne (s : State) {x y : Nat} (b : Byte) (h : y ≠ x) :
    State.memRead { s with mem := Cells.write s.mem x b } y = s.memRead y :=
  State.memRead_congr (Cells.read_write_of_ne s.mem b h) rfl

/-- A load of a byte that memory lists answers it (R11). -/
theorem loadByte_of_listed {host x : Nat} {s : State} {b : Byte} (hx : x < s.memSize) (h : s.mem.read x = some b) :
    loadByte host x s = .next (s.answer host (b.setWidth 32)) := by
  simp [loadByte, Nat.not_le.2 hx, h]

/-- A load of a byte that memory does not list answers a free value and counts it (log 16). -/
theorem loadByte_of_unlisted {host x : Nat} {s : State} (hx : x < s.memSize) (h : s.mem.read x = none) :
    loadByte host x s = .next
      { s.answer host ((Config.platformByte s.hostLoads).setWidth 32) with hostLoads := s.hostLoads + 1 } := by
  simp [loadByte, Nat.not_le.2 hx, h]

/-! ### Recorded faults (R12, R119) -/

/-- A state that records a fault answers it, whatever else it holds. -/
theorem step_of_fault {s : State} {f : Fault} (h : s.fault = some f) : step s = .fault f := by
  simp [step, h]

/-- The record of a fault writes the fault field alone. -/
theorem State.record_of_fault {s : State} {f : Fault} (h : step s = .fault f) :
    s.record = { s with fault := some f } := by
  simp [State.record, h]

/-- A state that records a fault is its own record. -/
theorem State.record_of_recorded {s : State} {f : Fault} (h : s.fault = some f) : s.record = s := by
  rw [State.record_of_fault (step_of_fault h), ← h]

/-! ### The obligations -/

/-- Settles O7: a state that records neither fault nor refusal takes the move at the head of the agenda. -/
theorem stepTakesTheNextMove : Obligations.StepTakesTheNextMove := by
  rintro s ⟨hf, hr⟩
  rw [step_of_noFault hf hr]
  exact ⟨takeMove_nil, fun _ _ => takeMove_cons⟩

/-- Settles O26: a store is the one move that changes memory, and it writes one cell. -/
theorem onlyStoresChangeMemory : Obligations.OnlyStoresChangeMemory := by
  intro s t h hne
  obtain ⟨a, b, hnext, hmem⟩ := (step_mem h).resolve_left hne
  rw [hmem]
  exact ⟨a, b, hnext, Cells.read_write_same s.mem a b, fun x hx => Cells.read_write_of_ne s.mem b hx⟩

/-- Settles O28: the store by the hazard rule and the laws of a memory write, the load by whether memory lists the byte. -/
theorem storeElsewhereAndLoadAreServed : Obligations.StoreElsewhereAndLoadAreServed := by
  constructor
  · intro s x b hx hfree
    have hstore := (storeByte_next_iff (b := b)).2 ⟨hx, State.inLatchedRange_eq_false hfree, rfl⟩
    exact ⟨_, hstore, rfl, State.memRead_write_same b hx, fun y hy => s.memRead_write_of_ne b hy⟩
  · intro s h x hx
    cases hread : s.mem.read x with
    | some b =>
      refine ⟨_, loadByte_of_listed hx hread, rfl, ⟨_, rfl⟩, fun c hc => ?_⟩
      obtain rfl : b = c := Option.some.inj hc
      exact ⟨rfl, rfl⟩
    | none => exact ⟨_, loadByte_of_unlisted hx hread, rfl, ⟨_, rfl⟩, nofun⟩

/-- Settles O55: a recorded fault is looked at before any move, so the record of a fault is final. -/
theorem faultsAreTerminal : Obligations.FaultsAreTerminal := by
  refine ⟨fun s f hf => ⟨step_of_fault hf, State.record_of_recorded hf⟩, fun s f h => ?_⟩
  have hrec : s.record = { s with fault := some f } := State.record_of_fault h
  have hfault : s.record.fault = some f := by rw [hrec]
  exact ⟨hrec, step_of_fault hfault, State.record_of_recorded hfault, fun _ => step_of_fault hfault⟩

end Sys2Proof.Machine

/-! Proofs of the statements on the state: the registers a host reaches (R20 to R22, R25), the command it writes (R16), the
table and TABLE_VALID (R20, R26, R27), and the invariant that every step keeps (R17 to R31). -/

namespace Sys2Proof.Machine

/-! ### The invariant, phase by phase -/

/-- The part of the invariant that does not look at the phase. -/
structure State.Sound (s : State) : Prop where
  errLegal : s.err.toNat ≤ 3
  platformWf : s.platform.wf = true
  bufAddrFits : s.bufAddr.toNat < s.memSize
  memWf : s.mem.wf s.platform.addrW = true
  tableWf : s.table.wf = true
  tableFull : s.tableValid = true → ∀ t < 16, ∀ i, s.table.entry t i = some (tableValue t i)

/-- What a running CHECKSUM has latched: a range, and `ptr` and `rem` that split it (R30, R31, R84). -/
def State.RangeSplit (s : State) : Prop :=
  ∃ a len p n c, s.addr0 = some a ∧ s.len0 = some len ∧ s.ptr = some p ∧ s.rem = some n ∧ s.crc = some c ∧
    a ≤ p ∧ p + n = a + len ∧ a < s.memSize ∧ len < 2 ^ 32

/-- The entries of the indices below `n`, and no others, hold the values of R71 (R74). -/
def Table.FilledBelow (T : Table) (n : Nat) : Prop :=
  ∀ t < 16, ∀ j : Byte, T.entry t j = if j.toNat < n then some (tableValue t j) else none

theorem State.Inv.sound {s : State} (h : s.Inv) : s.Sound := { h with }

theorem State.Sound.inv_of_idle {s : State} (h : s.Sound) (hp : s.phase = .idle)
    (hT : s.tableValid = false → s.table = []) : s.Inv :=
  { h with
    doneClear := by simp [State.busy, hp]
    tableEmpty := fun hv _ => hT hv
    tablePartial := by simp [hp]
    crcHasTable := by simp [hp]
    latched := by simp [State.ChecksumRunning, hp] }

theorem State.Sound.inv_of_build {s : State} {i : Byte} {c : Chain} (h : s.Sound) (hp : s.phase = .build i c)
    (hd : s.done = false) (hv : s.tableValid = false) (hT : s.table.FilledBelow i.toNat)
    (hr : c = .checksum → s.RangeSplit) : s.Inv :=
  { h with
    doneClear := fun _ => hd
    tableEmpty := fun _ hb => absurd hp (hb i c)
    tablePartial := fun j d hb => by
      obtain ⟨rfl, rfl⟩ := Phase.build.inj (hp.symm.trans hb)
      exact ⟨hv, hT⟩
    crcHasTable := by simp [hp]
    latched := fun hc => hr (by simpa [State.ChecksumRunning, hp] using hc) }

theorem State.Sound.inv_of_crc {s : State} (h : s.Sound) (hp : s.phase = .crc) (hd : s.done = false)
    (hv : s.tableValid = true) (hr : s.RangeSplit) : s.Inv :=
  { h with
    doneClear := fun _ => hd
    tableEmpty := by simp [hv]
    tablePartial := by simp [hp]
    crcHasTable := fun _ => hv
    latched := fun _ => hr }

theorem State.Inv.done_of_not_idle {s : State} (h : s.Inv) (hp : s.phase ≠ .idle) : s.done = false :=
  h.doneClear (s.busy_of_not_idle hp)

theorem State.Inv.table_nil_of_idle {s : State} (h : s.Inv) (hp : s.phase = .idle) (hv : s.tableValid = false) :
    s.table = [] :=
  h.tableEmpty hv (by simp [hp])

theorem State.memSize_pos (s : State) : 0 < s.memSize := Nat.two_pow_pos _

/-! ### Registers and answers: the phase stays (R19, R22, R39, R40) -/

/-- STATUS may take any legal code, and DONE = 1 while no operation runs. -/
theorem State.Inv.setStatus {s : State} (h : s.Inv) {e : BitVec 3} {d : Bool} (he : e.toNat ≤ 3)
    (hd : s.phase ≠ .idle → d = false) : ({ s with err := e, done := d } : State).Inv :=
  { h with
    errLegal := he
    doneClear := fun hb => hd (s.busy_eq_true_iff.1 hb) }

theorem ErrCode.code_le (c : ErrCode) : c.code.toNat ≤ 3 := by cases c <;> decide

theorem State.Inv.setErr {s : State} (h : s.Inv) (c : ErrCode) : (s.setErr c).Inv :=
  h.setStatus c.code_le h.done_of_not_idle

theorem State.Inv.accept {s : State} (h : s.Inv) : s.accept.Inv := h.setStatus (ErrCode.code_le .none) fun _ => rfl

theorem State.Inv.finish {s : State} (h : s.Inv) (hp : s.phase = .idle) : s.finish.Inv :=
  h.setStatus h.errLegal (absurd hp)

theorem State.Inv.reportError {s : State} (h : s.Inv) (hp : s.phase = .idle) (c : ErrCode) : (s.reportError c).Inv :=
  h.setStatus c.code_le (absurd hp)

theorem State.Inv.answer {s : State} (h : s.Inv) (host : Nat) (v : Word) : (s.answer host v).Inv := { h with }

theorem truncAddr_toNat (p : Platform) (w : Word) : (truncAddr p w).toNat = w.toNat % 2 ^ p.addrW := by
  have hle : w.toNat % 2 ^ p.addrW ≤ w.toNat := Nat.mod_le _ _
  rw [truncAddr, BitVec.toNat_ofNat, Nat.mod_eq_of_lt (Nat.lt_of_le_of_lt hle w.isLt)]

theorem State.Inv.writeBufAddr {s : State} (h : s.Inv) (w : Word) :
    ({ s with bufAddr := truncAddr s.platform w } : State).Inv :=
  { h with
    bufAddrFits := by
      rw [truncAddr_toNat]
      exact Nat.mod_lt _ s.memSize_pos }

theorem State.Inv.writeBufLen {s : State} (h : s.Inv) (w : Word) : ({ s with bufLen := w } : State).Inv := { h with }

/-! ### Commands (R73, R77, R82 to R84) -/

/-- The empty table is what a build starts from (R27, R74). -/
theorem Table.filledBelow_zero : Table.FilledBelow [] 0 := fun _ _ _ => rfl

theorem State.startCrc_rangeSplit {s : State} (h : s.bufAddr.toNat < s.memSize) : s.startCrc.RangeSplit :=
  ⟨_, _, _, _, _, rfl, rfl, rfl, rfl, rfl, Nat.le_refl _, rfl, h, s.bufLen.isLt⟩

/-- A command body run on an idle engine with DONE cleared keeps the invariant. -/
theorem commandBody_inv {s : State} (h : s.Inv) (hp : s.phase = .idle) (hd : s.done = false) (i : Instr) :
    (commandBody i s).Inv := by
  have hsound := h.sound
  have hrange := State.startCrc_rangeSplit h.bufAddrFits
  have hempty (hv : s.tableValid = false) : s.table.FilledBelow 0 :=
    h.table_nil_of_idle hp hv ▸ Table.filledBelow_zero
  obtain ⟨-, hb⟩ | ⟨-, -, hb⟩ | ⟨-, hv, hb⟩ | ⟨-, hb⟩ | ⟨-, hv, hb⟩ | ⟨-, hv, hb⟩ | ⟨-, hb⟩ := commandBody_cases i s <;>
    rw [hb]
  · exact h.finish hp
  · exact h.finish hp
  · exact State.Sound.inv_of_build { hsound with } rfl hd hv (hempty hv) nofun
  · exact h.reportError hp _
  · exact State.Sound.inv_of_crc { hsound with } rfl hd hv hrange
  · exact State.Sound.inv_of_build { hsound with } rfl hd hv (hempty hv) fun _ => hrange
  · exact State.Sound.inv_of_idle { hsound with tableWf := rfl, tableFull := nofun } hp fun _ => rfl

theorem dispatchWord_inv {w : Word} {s t : State} (h : s.Inv) (hd : dispatchWord w s = .next t) : t.Inv := by
  obtain ⟨-, rfl⟩ | ⟨hp, i, -, rfl⟩ | ⟨hp, -, rfl⟩ := dispatchWord_cases hd
  · exact h.setErr _
  · exact commandBody_inv h.accept hp rfl i
  · exact h.accept.reportError hp _

/-! ### Agents outside the engine (R39, R40, R54, R68, R120) -/

theorem performAccess_inv {a : HostAccess} {s t : State} (h : s.Inv) (ht : performAccess a s = .next t) :
    t.Inv := by
  obtain ⟨r, -, rfl⟩ | ⟨w, -, -, hd⟩ | ⟨w, -, rfl⟩ | ⟨w, -, rfl⟩ | ⟨w, -, rfl⟩ := performAccess_cases ht
  · exact h.answer _ _
  · exact dispatchWord_inv h hd
  · exact h.writeBufAddr w
  · exact h.writeBufLen w
  · exact h

theorem loadByte_inv {host a : Nat} {s t : State} (h : s.Inv) (hl : loadByte host a s = .next t) : t.Inv := by
  obtain ⟨-, ⟨b, -, rfl⟩ | ⟨-, rfl⟩⟩ := loadByte_cases hl
  · exact h.answer _ _
  · exact { h with }

theorem storeByte_inv {a : Nat} {b : Byte} {s t : State} (h : s.Inv) (hs : storeByte a b s = .next t) : t.Inv := by
  obtain ⟨ha, -, rfl⟩ := storeByte_next_iff.1 hs
  exact { h with memWf := Memory.wf_write b ha h.memWf }

theorem pollStatus_inv {s : State} (h : s.Inv) (host : Nat) : (pollStatus host s).Inv := by
  obtain ⟨-, hp⟩ | ⟨-, hp⟩ := pollStatus_cases host s <;> rw [hp]
  · exact (h.answer _ _).setAgenda _
  · exact h.answer _ _

theorem State.Inv.resetBlock {s : State} (h : s.Inv) : s.resetBlock.Inv :=
  State.Sound.inv_of_idle
    { h.sound with
      errLegal := Nat.zero_le 3
      bufAddrFits := s.memSize_pos
      tableWf := rfl
      tableFull := nofun }
    rfl fun _ => rfl

/-! ### The engine (R74, R75, R85 to R88) -/

/-- A build micro-step fills one index more (R74). -/
theorem Table.filledBelow_buildRow {i : Byte} {T : Table} (h : T.FilledBelow i.toNat) :
    (buildRow i T).FilledBelow (i.toNat + 1) := by
  intro t ht j
  rw [buildRow_entry i T ht, h t ht]
  by_cases hj : j = i
  · simp [hj]
  · have hne : j.toNat ≠ i.toNat := fun e => hj (BitVec.eq_of_toNat_eq e)
    have hiff : j.toNat < i.toNat ↔ j.toNat < i.toNat + 1 := by omega
    simp [hj, hiff]

/-- A table filled below 256 is whole (R71). -/
theorem Table.FilledBelow.full {T : Table} (h : T.FilledBelow 256) : ∀ t < 16, ∀ i, T.entry t i = some (tableValue t i) :=
  fun t ht i => (h t ht i).trans (if_pos i.isLt)

theorem buildStep_inv {i : Byte} {c : Chain} {s : State} (h : s.Inv) (hp : s.phase = .build i c) :
    (buildStep i c s).Inv := by
  obtain ⟨hv, hT⟩ := h.tablePartial i c hp
  have hd : s.done = false := h.done_of_not_idle (by simp [hp])
  have hrange (hc : c = .checksum) : s.RangeSplit := h.latched (.inr ⟨i, hc ▸ hp⟩)
  have hwf : (buildRow i s.table).wf = true := buildRow_wf i h.tableWf
  have hrow : (buildRow i s.table).FilledBelow (i.toNat + 1) := Table.filledBelow_buildRow hT
  have hcases := buildStep_cases i c s
  -- From here on the new table is any `T` that is in canonical form and filled one index further.
  generalize buildRow i s.table = T at hwf hrow hcases
  obtain ⟨hi, hb⟩ | ⟨rfl, -, hb⟩ | ⟨rfl, hc, hb⟩ := hcases <;> rw [hb]
  · have hsucc : (i + 1#8).toNat = i.toNat + 1 := by rw [BitVec.toNat_add]; simp; omega
    exact State.Sound.inv_of_build { h.sound with tableWf := hwf, tableFull := by simp [hv] } rfl hd hv (hsucc ▸ hrow)
      hrange
  · exact State.Sound.inv_of_idle { h.sound with tableWf := hwf, tableFull := fun _ => hrow.full } rfl nofun
  · exact State.Sound.inv_of_crc { h.sound with tableWf := hwf, tableFull := fun _ => hrow.full } rfl hd rfl (hrange hc)

/-- Taking in `k` bytes moves `ptr` up and `rem` down by `k` (R86, R87). -/
theorem State.RangeSplit.advanceCrc {s : State} (h : s.RangeSplit) {k : Nat} (hk : k ≤ s.remValue) (crc : Word) :
    (s.advanceCrc crc k).RangeSplit := by
  obtain ⟨a, len, p, n, c, haddr, hlen, hptr, hrem, -, hap, hsum, ha, hl⟩ := h
  rw [remValue_some hrem] at hk
  refine ⟨a, len, p + k, n - k, crc, haddr, hlen, ?_, ?_, rfl, by omega, by omega, ha, hl⟩
  · rw [advanceCrc_ptr, ptrValue_some hptr]
  · rw [advanceCrc_rem, remValue_some hrem]

theorem State.Inv.advanceCrc {s : State} (h : s.Inv) (hp : s.phase = .crc) {k : Nat} (hk : k ≤ s.remValue) (crc : Word) :
    (s.advanceCrc crc k).Inv :=
  State.Sound.inv_of_crc { h.sound with } hp (h.done_of_not_idle (by simp [hp])) (h.crcHasTable hp)
    (State.RangeSplit.advanceCrc (h.latched (.inl hp)) hk crc)

theorem crcStep_inv {s t : State} (h : s.Inv) (hp : s.phase = .crc) (ht : crcStep s = .next t) : t.Inv := by
  obtain ⟨hn, hw⟩ | ⟨hn, -, hb⟩ | ⟨-, rfl⟩ := crcStep_cases ht
  · obtain ⟨v, c, -, -, rfl⟩ := windowStep_next_iff.1 hw
    exact h.advanceCrc hp hn c
  · obtain ⟨x, c, -, -, rfl⟩ := byteStep_next_iff.1 hb
    exact h.advanceCrc hp hn c
  · have hv := h.crcHasTable hp
    exact State.Sound.inv_of_idle { h.sound with } rfl fun hv' => absurd (hv'.symm.trans hv) Bool.false_ne_true

theorem engineStep_inv {s t : State} (h : s.Inv) (ht : engineStep s = .next t) : t.Inv := by
  obtain ⟨-, rfl⟩ | ⟨i, c, hp, rfl⟩ | ⟨hp, hc⟩ := engineStep_cases ht
  · exact h
  · exact buildStep_inv h hp
  · exact crcStep_inv h hp hc

theorem perform_inv {m : Move} {s t : State} (h : s.Inv) (ht : perform m s = .next t) : t.Inv := by
  cases m with
  | engine => exact engineStep_inv h ht
  | access a => exact performAccess_inv h ht
  | load host a => exact loadByte_inv h ht
  | store a b => exact storeByte_inv h ht
  | waitIdle host => cases ht; exact pollStatus_inv h host
  | reset => cases ht; exact h.resetBlock

/-! ### The registers a host reaches (R20 to R22, R25) -/

/-- A 32-bit read at a register's offset answers the register (R39). -/
theorem performAccess_read {o : Nat} {r : Reg} (ho : o < 32) (hr : regAt o = some r) (s : State) (host : Nat) :
    performAccess ⟨host, s.platform.crcBase + o, 32, .read⟩ s = .next (s.answer host (s.regRead r)) := by
  rw [performAccess, selectReg_offset ho, hr]
  rfl

/-- A 32-bit write at a register's offset writes the register (R40). -/
theorem performAccess_write {o : Nat} {r : Reg} (ho : o < 32) (hr : regAt o = some r) (s : State) (host : Nat) (w : Word) :
    performAccess ⟨host, s.platform.crcBase + o, 32, .write w⟩ s = regWrite r w s := by
  rw [performAccess, selectReg_offset ho, hr]
  rfl

theorem truncAddr_getLsbD (p : Platform) (w : Word) (k : Nat) :
    (truncAddr p w).getLsbD k = (decide (k < p.addrW) && w.getLsbD k) := by
  rw [BitVec.getLsbD, truncAddr_toNat, Nat.testBit_mod_two_pow]
  rfl

/-- With 32-bit addresses BUF_ADDR stores the whole word (R22). -/
theorem truncAddr_of_addrW_eq {p : Platform} (hp : p.addrW = 32) (w : Word) : truncAddr p w = w := by
  apply BitVec.eq_of_toNat_eq
  rw [truncAddr_toNat, hp, Nat.mod_eq_of_lt w.isLt]

/-! ### The fields of the STATUS word (R21) -/

section StatusFields

variable (s : State)

/-- The word bit by bit, from BUSY up. -/
theorem State.statusWord_getLsbD (k : Nat) : s.statusWord.getLsbD k = (decide (k < 32) &&
    if k < 1 then (BitVec.ofBool s.busy).getLsbD k
    else if k - 1 < 1 then (BitVec.ofBool s.done).getLsbD (k - 1)
    else if k - 1 - 1 < 1 then (BitVec.ofBool s.tableValid).getLsbD (k - 1 - 1)
    else if k - 1 - 1 - 1 < 1 then (0#1).getLsbD (k - 1 - 1 - 1)
    else s.err.getLsbD (k - 1 - 1 - 1 - 1)) := by
  rw [State.statusWord, BitVec.getLsbD_setWidth]
  iterate 4 rw [BitVec.getLsbD_append]

theorem State.statusWord_done : s.statusWord.getLsbD 1 = s.done := by
  rw [State.statusWord_getLsbD]
  simp

theorem State.statusWord_tableValid : s.statusWord.getLsbD 2 = s.tableValid := by
  rw [State.statusWord_getLsbD]
  simp

theorem State.statusWord_bit3 : s.statusWord.getLsbD 3 = false := by
  rw [State.statusWord_getLsbD]
  simp

theorem State.statusWord_err : s.statusWord.extractLsb' 4 3 = s.err := by
  apply BitVec.eq_of_getLsbD_eq
  intro k hk
  have hshift : 4 + k = k + 1 + 1 + 1 + 1 := by omega
  have hk32 : k + 1 + 1 + 1 + 1 < 32 := by omega
  rw [BitVec.getLsbD_extractLsb', State.statusWord_getLsbD, hshift]
  simp [hk, hk32]

theorem State.statusWord_high {k : Nat} (hk : 7 ≤ k) : s.statusWord.getLsbD k = false := by
  rw [State.statusWord, BitVec.getLsbD_setWidth, BitVec.getLsbD_of_ge _ _ hk, Bool.and_false]

end StatusFields

/-! ### What changes the table and TABLE_VALID (R20, R26, R76) -/

/-- The table and TABLE_VALID of `t` are those of `s`. -/
def State.SameTable (s t : State) : Prop := t.table = s.table ∧ t.tableValid = s.tableValid

/-- `t` has no table (R27). -/
def State.NoTable (t : State) : Prop := t.table = [] ∧ t.tableValid = false

/-- TABLE_VALID changes in a build micro-step only if it is the last, which sets it (R74, R75). -/
theorem buildStep_tableValid (i : Byte) (c : Chain) (s : State) :
    (buildStep i c s).tableValid = s.tableValid ∨ (i = 255#8 ∧ (buildStep i c s).tableValid = true) := by
  obtain ⟨-, hb⟩ | ⟨hi, -, hb⟩ | ⟨hi, -, hb⟩ := buildStep_cases i c s <;> rw [hb]
  · exact .inl rfl
  · exact .inr ⟨hi, rfl⟩
  · exact .inr ⟨hi, rfl⟩

theorem crcStep_sameTable {s t : State} (h : crcStep s = .next t) : s.SameTable t := by
  obtain ⟨-, hw⟩ | ⟨-, -, hb⟩ | ⟨-, rfl⟩ := crcStep_cases h
  · obtain ⟨v, c, -, -, rfl⟩ := windowStep_next_iff.1 hw
    exact ⟨rfl, rfl⟩
  · obtain ⟨x, c, -, -, rfl⟩ := byteStep_next_iff.1 hb
    exact ⟨rfl, rfl⟩
  · exact ⟨rfl, rfl⟩

/-- The engine changes the table in phase BUILD only (R76). -/
theorem engineStep_table {s t : State} (h : engineStep s = .next t) :
    s.SameTable t ∨ ∃ i c, s.phase = .build i c ∧ t = buildStep i c s := by
  obtain ⟨-, rfl⟩ | hb | ⟨-, hc⟩ := engineStep_cases h
  · exact .inl ⟨rfl, rfl⟩
  · exact .inr hb
  · exact .inl (crcStep_sameTable hc)

/-- INVALIDATE_TABLE is the one command that changes the table (R77). -/
theorem commandBody_table (i : Instr) (s : State) :
    s.SameTable (commandBody i s) ∨ (i = .invalidateTable ∧ (commandBody i s).NoTable) := by
  obtain ⟨-, hb⟩ | ⟨-, -, hb⟩ | ⟨-, -, hb⟩ | ⟨-, hb⟩ | ⟨-, -, hb⟩ | ⟨-, -, hb⟩ | ⟨hi, hb⟩ := commandBody_cases i s <;>
    rw [hb]
  case inr.inr.inr.inr.inr.inr => exact .inr ⟨hi, rfl, rfl⟩
  all_goals exact .inl ⟨rfl, rfl⟩

theorem dispatchWord_table {w : Word} {s t : State} (h : dispatchWord w s = .next t) :
    s.SameTable t ∨ (s.phase = .idle ∧ decode w = .ok .invalidateTable ∧ t.NoTable) := by
  obtain ⟨-, rfl⟩ | ⟨hp, i, hd, rfl⟩ | ⟨-, -, rfl⟩ := dispatchWord_cases h
  · exact .inl ⟨rfl, rfl⟩
  · obtain hsame | ⟨rfl, hno⟩ := commandBody_table i s.accept
    · exact .inl hsame
    · exact .inr ⟨hp, hd, hno⟩
  · exact .inl ⟨rfl, rfl⟩

theorem performAccess_table {a : HostAccess} {s t : State} (h : performAccess a s = .next t) :
    s.SameTable t ∨ (s.phase = .idle ∧ (∃ w, a.kind = .write w ∧ selectReg s.platform a = .ok .cmd ∧
      decode w = .ok .invalidateTable) ∧ t.NoTable) := by
  obtain ⟨r, -, rfl⟩ | ⟨w, hk, hsel, hd⟩ | ⟨w, -, rfl⟩ | ⟨w, -, rfl⟩ | ⟨w, -, rfl⟩ := performAccess_cases h
  case inr.inl =>
    obtain hsame | ⟨hp, hw, hno⟩ := dispatchWord_table hd
    · exact .inl hsame
    · exact .inr ⟨hp, ⟨w, hk, hsel, hw⟩, hno⟩
  all_goals exact .inl ⟨rfl, rfl⟩

theorem loadByte_sameTable {host a : Nat} {s t : State} (h : loadByte host a s = .next t) : s.SameTable t := by
  obtain ⟨-, ⟨b, -, rfl⟩ | ⟨-, rfl⟩⟩ := loadByte_cases h <;> exact ⟨rfl, rfl⟩

theorem pollStatus_sameTable (host : Nat) (s : State) : s.SameTable (pollStatus host s) := by
  obtain ⟨-, h⟩ | ⟨-, h⟩ := pollStatus_cases host s <;> rw [h] <;> exact ⟨rfl, rfl⟩

/-- The three ways in which a step can change the table (R76): a build micro-step (taken once the move is off the agenda),
an accepted INVALIDATE_TABLE, and reset. -/
theorem step_table {s t : State} (h : step s = .next t) :
    s.SameTable t ∨
    (s.EngineMoves ∧ ∃ i c moves, s.phase = .build i c ∧ t = buildStep i c { s with agenda := moves }) ∨
    (s.phase = .idle ∧ (∃ w, s.NextCommand w ∧ decode w = .ok .invalidateTable) ∧ t.NoTable) ∨
    (s.NextMove .reset ∧ t.NoTable) := by
  obtain ⟨-, -, ⟨ha, he⟩ | ⟨m, rest, ha, hm⟩⟩ := step_cases h
  · obtain hsame | ⟨i, c, hp, rfl⟩ := engineStep_table he
    · exact .inl hsame
    · exact .inr (.inl ⟨.inl ha, i, c, s.agenda, hp, rfl⟩)
  · cases m with
    | engine =>
      obtain hsame | ⟨i, c, hp, rfl⟩ := engineStep_table hm
      · exact .inl hsame
      · exact .inr (.inl ⟨.inr ⟨rest, ha⟩, i, c, rest, hp, rfl⟩)
    | access a =>
      obtain hsame | ⟨hp, ⟨w, hk, hsel, hw⟩, hno⟩ := performAccess_table hm
      · exact .inl hsame
      · exact .inr (.inr (.inl ⟨hp, ⟨w, ⟨a, ⟨rest, ha⟩, hk, hsel⟩, hw⟩, hno⟩))
    | load host a =>
      have hsame := loadByte_sameTable hm
      exact .inl hsame
    | store a b =>
      obtain ⟨-, -, rfl⟩ := storeByte_next_iff.1 hm
      exact .inl ⟨rfl, rfl⟩
    | waitIdle host => cases hm; exact .inl (pollStatus_sameTable host _)
    | reset => cases hm; exact .inr (.inr (.inr ⟨⟨rest, ha⟩, rfl, rfl⟩))

/-- A step that changes TABLE_VALID completes a build, takes INVALIDATE_TABLE or resets the block (R20). -/
theorem step_tableValid {s t : State} (h : step s = .next t) (hne : t.tableValid ≠ s.tableValid) :
    (t.tableValid = true ∧ s.EngineMoves ∧ ∃ c, s.phase = .build 255#8 c) ∨
    (t.tableValid = false ∧ s.phase = .idle ∧ ∃ w, s.NextCommand w ∧ decode w = .ok .invalidateTable) ∨
    (t.tableValid = false ∧ s.NextMove .reset) := by
  obtain ⟨-, hsame⟩ | ⟨hm, i, c, moves, hp, rfl⟩ | ⟨hp, hcmd, -, hv⟩ | ⟨hm, -, hv⟩ := step_table h
  · exact absurd hsame hne
  · obtain hsame | ⟨rfl, hv⟩ := buildStep_tableValid i c { s with agenda := moves }
    · exact absurd hsame hne
    · exact .inl ⟨hv, hm, c, hp⟩
  · exact .inr (.inl ⟨hv, hp, hcmd⟩)
  · exact .inr (.inr ⟨hv, hm⟩)

/-! ### Faults of the engine over a whole table (R27, R89, R104) -/

theorem State.memRead_ne_tableUnbuilt (s : State) (a : Nat) : s.memRead a ≠ .error .tableUnbuilt := by
  intro h
  obtain ⟨-, hf⟩ | ⟨-, -, hf⟩ := State.memRead_eq_error_iff.1 h <;> cases hf

section WholeTable

variable {s : State} {f : Fault} (hT : ∀ t < 16, ∀ i, s.lookup t i = some (tableValue t i))

include hT

/-- With a whole table a WindowStep faults only where a read of memory does (R89). -/
theorem windowStep_fault (h : windowStep s = .fault f) : ∃ a, s.memRead a = .error f := by
  unfold windowStep at h
  cases hr : s.readBytes s.ptrValue 16 with
  | error g =>
    obtain ⟨j, -, -, hj⟩ := State.readBytes_eq_error_iff.1 hr
    simp only [hr, Host.Outcome.fault.injEq] at h
    exact ⟨_, h ▸ hj⟩
  | ok v => simp [hr, windowCrc_of_table hT] at h

/-- With a whole table a ByteStep faults only where its read of memory does (R89). -/
theorem byteStep_fault (h : byteStep s = .fault f) : ∃ a, s.memRead a = .error f := by
  unfold byteStep at h
  cases hr : s.memRead s.ptrValue with
  | error g =>
    simp only [hr, Host.Outcome.fault.injEq] at h
    exact ⟨_, h ▸ hr⟩
  | ok x => simp [hr, byteCrc_of_table hT] at h

theorem crcStep_fault (h : crcStep s = .fault f) : ∃ a, s.memRead a = .error f := by
  unfold crcStep at h
  split at h
  · exact windowStep_fault hT h
  · split at h
    · exact byteStep_fault hT h
    · cases h

end WholeTable

/-- Under the invariant the engine faults only where a read of memory does: phase CRC has a whole table (R27, R83). -/
theorem engineStep_fault {s : State} {f : Fault} (h : s.Inv) (hf : engineStep s = .fault f) :
    ∃ a, s.memRead a = .error f := by
  cases hp : s.phase with
  | idle => simp [engineStep_idle hp] at hf
  | build i c => simp [engineStep_build hp] at hf
  | crc =>
    rw [engineStep_crc hp] at hf
    have hv := h.crcHasTable hp
    refine crcStep_fault ?_ hf
    rw [State.lookup_of_valid hv]
    exact h.tableFull hv

/-! ### The obligations -/

/-- Settles O57: whoever moves, the engine or an agent, the move keeps the invariant. -/
theorem stepKeepsTheInvariant : Obligations.StepKeepsTheInvariant := by
  intro s t h ht
  obtain ⟨-, -, ⟨-, he⟩ | ⟨m, rest, -, hm⟩⟩ := step_cases ht
  · exact engineStep_inv h he
  · exact perform_inv (h.setAgenda rest) hm

/-- Settles O19: field by field, from the concatenation that makes the word. -/
theorem statusWordLayout : Obligations.StatusWordLayout := by
  intro s
  refine ⟨rfl, s.statusWord_bit0, s.statusWord_done, s.statusWord_tableValid, s.statusWord_bit3, s.statusWord_err,
    fun _ => s.statusWord_high, fun _ => rfl, fun hp hv hd he => ?_⟩
  rw [State.statusWord, he, hv, hd, s.busy_of_idle hp]
  rfl

/-- Settles O21: the write stores the word modulo `2^ADDR_W`, and the read answers what is stored. -/
theorem bufAddrKeepsItsWidth : Obligations.BufAddrKeepsItsWidth := fun s h h' w =>
  ⟨_, performAccess_write (r := .bufAddr) (by decide) rfl s h w, performAccess_read (o := 0x08) (by decide) rfl _ h',
    truncAddr_getLsbD s.platform w, fun hp => truncAddr_of_addrW_eq hp w, rfl, rfl, rfl, rfl⟩

/-- Settles O37: the first of the ways of `step_table` is no change, the others are those of the statement. -/
theorem onlyTheBuilderWritesTheTable : Obligations.OnlyTheBuilderWritesTheTable := by
  intro s t h hne
  obtain ⟨hsame, -⟩ | ⟨hm, i, c, -, hp, -⟩ | ⟨hp, ⟨w, hc, hw⟩, hT, -⟩ | ⟨hm, hT, -⟩ := step_table h
  · exact absurd hsame hne
  · exact .inl ⟨hm, i, c, hp⟩
  · exact .inr (.inl ⟨hp, w, hc, hw, hT⟩)
  · exact .inr (.inr ⟨hm, hT⟩)

/-- Settles O38: the bit and its meaning, the three moves that give it a value, and that no other step changes it. -/
theorem tableValidChangesOnly : Obligations.TableValidChangesOnly := by
  refine ⟨rfl, State.statusWord_tableValid, fun s c hp => ?_, fun s hp => ⟨_, exec_of_idle _ hp, rfl⟩,
    fun s => ⟨_, rfl, rfl⟩, fun s h => h.tableFull, fun s t => step_tableValid⟩
  refine ⟨_, engineStep_build hp, ?_⟩
  cases c with
  | none => rw [buildStep_last_alone (by decide)]
  | checksum => rw [buildStep_last_checksum (by decide)]

/-- Settles O45: what the engine can fault is a read of memory, and no such read faults TABLE_UNBUILT. -/
theorem unbuiltTableIsNeverRead : Obligations.UnbuiltTableIsNeverRead := by
  intro s h hf
  obtain ⟨a, ha⟩ := engineStep_fault h hf
  exact s.memRead_ne_tableUnbuilt a ha

/-- Settles O8: the write at CRC_BASE is `Dispatch` of the word, and the table word placed is the word itself. -/
theorem stepRunsTheWrittenCommand : Obligations.StepRunsTheWrittenCommand := by
  rintro s w i ⟨hf, hr⟩ hd
  constructor
  · intro h rest ha
    rw [step_of_noFault hf hr, takeMove_cons ha, perform_cmdWrite (by rfl), dispatchWord_of_ok hd]
  · have hw : BitVec.ofNat 32 (w.toNat % 2 ^ 32) = w := by
      rw [Nat.mod_eq_of_lt w.isLt, BitVec.ofNat_toNat, BitVec.setWidth_eq]
    rw [step_of_noFault (s := s.withFetchWord 32 w.toNat) hf hr, takeMove_cons rfl, hw, perform_cmdWrite (by rfl),
      dispatchWord_of_ok hd]
    rfl

/-- Settles O20: each of the three offsets selects the reserved register. -/
theorem reservedOffsetsDoNothing : Obligations.ReservedOffsetsDoNothing := by
  intro o ho s h w
  have hreg : o < 32 ∧ regAt o = some .reserved := by revert o; decide
  obtain ⟨hlt, hr⟩ := hreg
  exact ⟨performAccess_read hlt hr s h, performAccess_write hlt hr s h w⟩

end Sys2Proof.Machine

/-! Proofs of the statements on memory and the register block's bus (R39 to R42, R49, R54), and that a running CHECKSUM's
accumulator stays the byte-at-a-time CRC of what it has read (R84 to R91). -/

namespace Sys2Proof.Machine

/-! ### The reduction is linear (R69, R70, R79) -/

theorem reduce1_eq_xor (x : Word) : reduce1 x = (if x.getLsbD 0 then poly else 0#32) ^^^ (x >>> 1) := by
  have hbit : x &&& 1#32 = 1#32 ↔ x.getLsbD 0 = true := by
    rw [BitVec.and_one_eq_setWidth_ofBool_getLsbD]
    cases x.getLsbD 0 <;> decide
  rw [reduce1, if_congr hbit rfl rfl]
  split
  · rfl
  · rw [BitVec.zero_xor]

theorem reduce1_xor (x y : Word) : reduce1 (x ^^^ y) = reduce1 x ^^^ reduce1 y := by
  have hpoly (p q : Bool) : (if (p ^^ q) = true then poly else 0#32) =
      (if p then poly else 0#32) ^^^ (if q then poly else 0#32) := by
    cases p <;> cases q <;> decide
  rw [reduce1_eq_xor, reduce1_eq_xor x, reduce1_eq_xor y, BitVec.getLsbD_xor, hpoly, BitVec.ushiftRight_xor_distrib]
  ac_rfl

theorem reduce8_xor (x y : Word) : reduce8 (x ^^^ y) = reduce8 x ^^^ reduce8 y := by
  simp only [reduce8, reduce1_xor]

theorem reducePow_xor (n : Nat) (x y : Word) : reducePow n (x ^^^ y) = reducePow n x ^^^ reducePow n y := by
  induction n with
  | zero => rfl
  | succ n ih => rw [reducePow, ih, reduce8_xor, reducePow, reducePow]

theorem tableValue_xor (t : Nat) (i j : Byte) : tableValue t (i ^^^ j) = tableValue t i ^^^ tableValue t j := by
  rw [tableValue, BitVec.setWidth_xor, reducePow_xor, tableValue, tableValue]

theorem reducePow_zero_word (n : Nat) : reducePow n 0#32 = 0#32 := by
  induction n with
  | zero => rfl
  | succ n ih => rw [reducePow, ih]; decide

/-- The rounds may be counted from the inside. -/
theorem reducePow_succ_inner (n : Nat) (x : Word) : reducePow (n + 1) x = reducePow n (reduce8 x) := by
  induction n with
  | zero => rfl
  | succ n ih => rw [reducePow, ih, reducePow]

/-! ### Eight bits of reduction shift out one byte (R78) -/

/-- The reduction of a word whose low bit is 0 is a shift. -/
theorem reduce1_shiftLeft {x : Word} {k : Nat} (hx : x.toNat < 2 ^ 24) (hk : k < 8) :
    reduce1 (x <<< (k + 1)) = x <<< k := by
  have heven : (x <<< (k + 1)).getLsbD 0 = false := by simp
  rw [reduce1_eq_xor, heven]
  apply BitVec.eq_of_getLsbD_eq
  intro i hi
  have hindex : 1 + i - (k + 1) = i - k := by omega
  have hlow : 1 + i < k + 1 ↔ i < k := by omega
  have htop (h : ¬ 1 + i < 32) : x.getLsbD (i - k) = false :=
    Nat.testBit_lt_two_pow (Nat.lt_of_lt_of_le hx (Nat.pow_le_pow_right (by decide) (by omega)))
  simp only [Bool.false_eq_true, if_false, BitVec.zero_xor, BitVec.getLsbD_ushiftRight, BitVec.getLsbD_shiftLeft, hindex,
    hlow, hi]
  by_cases h : 1 + i < 32
  · simp [h]
  · simp [htop h]

theorem reduce8_shiftLeft {x : Word} (hx : x.toNat < 2 ^ 24) : reduce8 (x <<< 8) = x := by
  simp only [reduce8]
  iterate 8 rw [reduce1_shiftLeft hx (by decide)]
  exact BitVec.shiftLeft_zero x

/-- A word is its low byte and the rest, so `reduce8` looks the low byte up and shifts the rest down (R78, R87). -/
theorem reduce8_eq_tableValue (x : Word) : reduce8 x = tableValue 0 (byteOf 0 x) ^^^ (x >>> 8) := by
  have hsplit : x = (byteOf 0 x).setWidth 32 ^^^ ((x >>> 8) <<< 8) := by
    apply BitVec.eq_of_getLsbD_eq
    intro i hi
    by_cases h : i < 8
    · simp [byteOf, h, hi]
    · have hback : 8 + (i - 8) = i := by omega
      simp [byteOf, h, hi, hback]
  have hlt : (x >>> 8).toNat < 2 ^ 24 := by
    rw [BitVec.toNat_ushiftRight, Nat.shiftRight_eq_div_pow]
    have hx := x.isLt
    omega
  conv_lhs => rw [hsplit]
  rw [reduce8_xor, reduce8_shiftLeft hlt]
  rfl

/-- The byte formula is one round of the reduction over the byte's XOR into the accumulator (R87). -/
theorem byteFormula_eq_reduce8 (crc : Word) (x : Byte) : byteFormula crc x = reduce8 crc ^^^ tableValue 0 x := by
  rw [byteFormula, tableValue_xor, reduce8_eq_tableValue]
  ac_rfl

theorem byteOf_ushiftRight (k : Nat) (x : Word) : byteOf k (x >>> 8) = byteOf (k + 1) x := by
  apply BitVec.eq_of_getLsbD_eq
  intro i hi
  have hindex : 8 + (8 * k + i) = 8 * (k + 1) + i := by omega
  simp [byteOf, hi, hindex]

/-- One byte of the accumulator, reduced `n + 1` times, is a table entry (R86). -/
theorem reducePow_succ_eq (n : Nat) (x : Word) :
    reducePow (n + 1) x = tableValue n (byteOf 0 x) ^^^ reducePow n (x >>> 8) := by
  rw [reducePow_succ_inner, reduce8_eq_tableValue, reducePow_xor]
  congr 1
  exact (reducePow_succ_inner n _).symm

/-- Reduced 16 times, the accumulator's four bytes are looked up in the slices 15 to 12 (R86). -/
theorem reducePow_sixteen (x : Word) : reducePow 16 x =
    tableValue 15 (byteOf 0 x) ^^^ tableValue 14 (byteOf 1 x) ^^^ tableValue 13 (byteOf 2 x) ^^^
      tableValue 12 (byteOf 3 x) := by
  have hout : x >>> 8 >>> 8 >>> 8 >>> 8 = 0#32 := by
    simp only [← BitVec.shiftRight_add]
    exact BitVec.ushiftRight_eq_zero (Nat.le_refl 32)
  iterate 4 rw [reducePow_succ_eq]
  rw [hout, reducePow_zero_word]
  simp only [byteOf_ushiftRight, BitVec.xor_zero, BitVec.xor_assoc]

/-- One byte more: the accumulator is reduced by a round, and the byte looked up in slice 0 (R87). -/
theorem bytewiseFrom_succ (crc : Word) (b : Nat → Byte) (n : Nat) :
    bytewiseFrom crc b (n + 1) = reduce8 (bytewiseFrom crc b n) ^^^ tableValue 0 (b n) :=
  byteFormula_eq_reduce8 _ _

/-- The window formula is sixteen byte formulas: each byte's table value is reduced once by every byte after it, and the
first accumulator sixteen times (R91). -/
theorem windowFormula_eq_bytewiseFrom (crc : Word) (b : Nat → Byte) :
    windowFormula crc (fun k => b k.val) = bytewiseFrom crc b 16 := by
  have hbyte (t : Nat) (x : Byte) : reduce8 (tableValue t x) = tableValue (t + 1) x := rfl
  have hcrc (n : Nat) : reduce8 (reducePow n crc) = reducePow (n + 1) crc := rfl
  have hstart : bytewiseFrom crc b 0 = reducePow 0 crc := rfl
  simp only [bytewiseFrom_succ, hstart, reduce8_xor, hbyte, hcrc, Nat.reduceAdd]
  simp only [reducePow_sixteen, windowFormula, tableValue_xor]
  ac_rfl

/-! ### The accumulator of a running CHECKSUM (R54, R84, R86, R87, R91) -/

/-- The accumulator depends on the bytes taken in alone. -/
theorem bytewiseFrom_congr {crc : Word} {b d : Nat → Byte} {n : Nat} (h : ∀ k < n, b k = d k) :
    bytewiseFrom crc b n = bytewiseFrom crc d n := by
  induction n with
  | zero => rfl
  | succ n ih => rw [bytewiseFrom, bytewiseFrom, ih fun k hk => h k (by omega), h n (by omega)]

/-- The recurrence may be cut anywhere (R91). -/
theorem bytewiseFrom_add (crc : Word) (b : Nat → Byte) (n m : Nat) :
    bytewiseFrom crc b (n + m) = bytewiseFrom (bytewiseFrom crc b n) (fun k => b (n + k)) m := by
  induction m with
  | zero => rfl
  | succ m ih => rw [Nat.add_succ, bytewiseFrom, bytewiseFrom, ih]

/-- The byte that memory holds at an address, and 0 where it holds none. -/
def Memory.byteAt (m : Memory) (a : Nat) : Byte := (Cells.read m a).getD 0#8

theorem Memory.byteAt_of_read {m : Memory} {a : Nat} {b : Byte} (h : Cells.read m a = some b) : m.byteAt a = b := by
  rw [Memory.byteAt, h, Option.getD_some]

theorem Memory.read_byteAt {m : Memory} {a : Nat} {b : Byte} (h : Cells.read m a = some b) :
    Cells.read m a = some (m.byteAt a) := by
  rw [Memory.byteAt_of_read h, h]

theorem State.not_checksumRunning_of_idle {s : State} (h : s.phase = .idle) : ¬ s.ChecksumRunning := by
  simp [State.ChecksumRunning, h]

theorem State.not_checksumRunning_of_buildAlone {s : State} {i : Byte} (h : s.phase = .build i .none) :
    ¬ s.ChecksumRunning := by
  simp [State.ChecksumRunning, h]

theorem State.crcTracksMemory_of_idle {s : State} (h : s.phase = .idle) : s.CrcTracksMemory :=
  fun hrun => absurd hrun (State.not_checksumRunning_of_idle h)

/-- At its start a CHECKSUM has taken in no byte (R84). -/
theorem State.crcTracksMemory_of_start {s : State} (hptr : s.ptr = s.addr0) (haddr : s.addr0 ≠ none)
    (hcrc : s.crc = some crcInit) : s.CrcTracksMemory := by
  intro _
  obtain ⟨a, ha⟩ := Option.ne_none_iff_exists'.1 haddr
  exact ⟨a, 0, fun _ => 0#8, ha, hptr.trans ha, nofun, hcrc⟩

/-- A build step before the CRC phase takes in no byte and leaves the range as it is (R74, R75). -/
theorem buildStep_crcTracksMemory {i : Byte} {c : Chain} {s : State} (h : s.CrcTracksMemory) (hp : s.phase = .build i c) :
    (buildStep i c s).CrcTracksMemory := by
  obtain ⟨-, hb⟩ | ⟨-, -, hb⟩ | ⟨-, rfl, hb⟩ := buildStep_cases i c s <;> rw [hb]
  · rintro (hrun | ⟨j, hrun⟩)
    · cases hrun
    · obtain ⟨-, rfl⟩ := Phase.build.inj hrun
      exact h (.inr ⟨i, hp⟩)
  · exact State.crcTracksMemory_of_idle rfl
  · exact fun _ => h (.inr ⟨i, hp⟩)

/-- Taking in the next `n` bytes of memory keeps the accumulator true (R86, R87). -/
theorem State.CrcTracksMemory.advanceCrc {s : State} (h : s.CrcTracksMemory) (hrun : s.ChecksumRunning) {n : Nat}
    {x : Nat → Byte} (hx : ∀ k < n, s.mem.read (s.ptrValue + k) = some (x k)) :
    (s.advanceCrc (bytewiseFrom s.crcValue x n) n).CrcTracksMemory := by
  intro _
  obtain ⟨a, m, b, haddr, hptr, hmem, hcrc⟩ := h hrun
  rw [State.ptrValue_some hptr] at hx
  have hold (k : Nat) (hk : k < m) : s.mem.byteAt (a + k) = b k := Memory.byteAt_of_read (hmem k hk)
  have hread (k : Nat) (hk : k < n) : s.mem.read (a + (m + k)) = some (x k) := by
    rw [← Nat.add_assoc]
    exact hx k hk
  have hnew (k : Nat) (hk : k < n) : s.mem.byteAt (a + (m + k)) = x k := Memory.byteAt_of_read (hread k hk)
  refine ⟨a, m + n, fun k => s.mem.byteAt (a + k), haddr, ?_, fun k hk => ?_, ?_⟩
  · rw [advanceCrc_ptr, State.ptrValue_some hptr, Nat.add_assoc]
  · rcases Nat.lt_or_ge k m with hkm | hkm
    · exact Memory.read_byteAt (hmem k hkm)
    · obtain ⟨j, rfl⟩ := Nat.exists_eq_add_of_le hkm
      exact Memory.read_byteAt (hread j (by omega))
  · rw [advanceCrc_crc, State.crcValue_some hcrc, bytewiseFrom_add, bytewiseFrom_congr hold, bytewiseFrom_congr hnew]

/-- Under the invariant phase CRC looks up the values of R71 (R27, R83). -/
theorem State.Inv.lookup_of_crc {s : State} (h : s.Inv) (hp : s.phase = .crc) :
    ∀ t < 16, ∀ i, s.lookup t i = some (tableValue t i) := by
  have hv := h.crcHasTable hp
  rw [State.lookup_of_valid hv]
  exact h.tableFull hv

theorem windowStep_crcTracksMemory {s t : State} (hinv : s.Inv) (h : s.CrcTracksMemory) (hp : s.phase = .crc)
    (ht : windowStep s = .next t) : t.CrcTracksMemory := by
  obtain ⟨v, c, hread, hc, rfl⟩ := windowStep_next_iff.1 ht
  have hmem (k : Nat) (hk : k < 16) : s.mem.read (s.ptrValue + k) = some v[k] := by
    obtain ⟨-, hmem⟩ := State.memRead_eq_ok_iff.1 (State.readBytes_eq_ok_iff.1 hread k hk)
    exact hmem
  have hv : (fun k : Fin 16 => v[k.val]) = fun k : Fin 16 => s.mem.byteAt (s.ptrValue + k.val) :=
    funext fun k => (Memory.byteAt_of_read (hmem k.val k.isLt)).symm
  rw [hv, windowCrc_of_table (hinv.lookup_of_crc hp),
    windowFormula_eq_bytewiseFrom _ fun k => s.mem.byteAt (s.ptrValue + k)] at hc
  obtain rfl := Option.some.inj hc
  exact h.advanceCrc (.inl hp) fun k hk => Memory.read_byteAt (hmem k hk)

theorem byteStep_crcTracksMemory {s t : State} (hinv : s.Inv) (h : s.CrcTracksMemory) (hp : s.phase = .crc)
    (ht : byteStep s = .next t) : t.CrcTracksMemory := by
  obtain ⟨x, c, hread, hc, rfl⟩ := byteStep_next_iff.1 ht
  obtain ⟨-, hmem⟩ := State.memRead_eq_ok_iff.1 hread
  rw [byteCrc_of_table (hinv.lookup_of_crc hp)] at hc
  obtain rfl := Option.some.inj hc
  refine h.advanceCrc (.inl hp) (n := 1) (x := fun _ => x) fun k hk => ?_
  obtain rfl := Nat.lt_one_iff.1 hk
  exact hmem

theorem engineStep_crcTracksMemory {s t : State} (hinv : s.Inv) (h : s.CrcTracksMemory)
    (ht : engineStep s = .next t) : t.CrcTracksMemory := by
  obtain ⟨-, rfl⟩ | ⟨i, c, hp, rfl⟩ | ⟨hp, hc⟩ := engineStep_cases ht
  · exact h
  · exact buildStep_crcTracksMemory h hp
  · obtain ⟨-, hw⟩ | ⟨-, -, hb⟩ | ⟨-, rfl⟩ := crcStep_cases hc
    · exact windowStep_crcTracksMemory hinv h hp hw
    · exact byteStep_crcTracksMemory hinv h hp hb
    · exact State.crcTracksMemory_of_idle rfl

/-- Of the commands only CHECKSUM with P = 1 leaves a CHECKSUM running, at its start (R81, R84). -/
theorem commandBody_crcTracksMemory {s : State} (hp : s.phase = .idle) (i : Instr) :
    (commandBody i s).CrcTracksMemory := by
  obtain ⟨-, hb⟩ | ⟨-, -, hb⟩ | ⟨-, -, hb⟩ | ⟨-, hb⟩ | ⟨-, -, hb⟩ | ⟨-, -, hb⟩ | ⟨-, hb⟩ := commandBody_cases i s <;>
    rw [hb]
  · exact State.crcTracksMemory_of_idle hp
  · exact State.crcTracksMemory_of_idle hp
  · exact fun hrun => absurd hrun (State.not_checksumRunning_of_buildAlone rfl)
  · exact State.crcTracksMemory_of_idle hp
  · exact State.crcTracksMemory_of_start rfl nofun rfl
  · exact State.crcTracksMemory_of_start rfl nofun rfl
  · exact State.crcTracksMemory_of_idle hp

theorem dispatchWord_crcTracksMemory {w : Word} {s t : State} (h : s.CrcTracksMemory)
    (hd : dispatchWord w s = .next t) : t.CrcTracksMemory := by
  obtain ⟨-, rfl⟩ | ⟨hp, i, -, rfl⟩ | ⟨hp, -, rfl⟩ := dispatchWord_cases hd
  · exact h
  · exact commandBody_crcTracksMemory (s := s.accept) hp i
  · exact State.crcTracksMemory_of_idle hp

theorem performAccess_crcTracksMemory {a : HostAccess} {s t : State} (h : s.CrcTracksMemory)
    (ht : performAccess a s = .next t) : t.CrcTracksMemory := by
  obtain ⟨r, -, rfl⟩ | ⟨w, -, -, hd⟩ | ⟨w, -, rfl⟩ | ⟨w, -, rfl⟩ | ⟨w, -, rfl⟩ := performAccess_cases ht
  case inr.inl => exact dispatchWord_crcTracksMemory h hd
  all_goals exact h

theorem loadByte_crcTracksMemory {host a : Nat} {s t : State} (h : s.CrcTracksMemory) (hl : loadByte host a s = .next t) :
    t.CrcTracksMemory := by
  obtain ⟨-, ⟨b, -, rfl⟩ | ⟨-, rfl⟩⟩ := loadByte_cases hl <;> exact h

theorem pollStatus_crcTracksMemory {s : State} (h : s.CrcTracksMemory) (host : Nat) :
    (pollStatus host s).CrcTracksMemory := by
  obtain ⟨-, hp⟩ | ⟨-, hp⟩ := pollStatus_cases host s <;> rw [hp] <;> exact h

/-- The part of the range that has been read lies in the latched range, and no store that is performed goes there (R54). -/
theorem storeByte_crcTracksMemory {x : Nat} {b : Byte} {s t : State} (hinv : s.Inv) (h : s.CrcTracksMemory)
    (hs : storeByte x b s = .next t) : t.CrcTracksMemory := by
  obtain ⟨-, hout, rfl⟩ := storeByte_next_iff.1 hs
  intro hrun
  obtain ⟨a, m, d, haddr, hptr, hmem, hcrc⟩ := h hrun
  obtain ⟨a', len, p, r, -, haddr', hlen, hptr', -, -, -, hsum, -⟩ := hinv.latched hrun
  obtain rfl := Option.some.inj (haddr.symm.trans haddr')
  obtain rfl := Option.some.inj (hptr.symm.trans hptr')
  have hfree : ¬ (a ≤ x ∧ x < a + len) := by
    intro hin
    rw [← State.addr0Value_some haddr, ← State.len0Value_some hlen] at hin
    exact Bool.false_ne_true (hout.symm.trans ((s.inLatchedRange_eq_true_iff x).2 ⟨hrun, hin⟩))
  refine ⟨a, m, d, haddr, hptr, fun k hk => ?_, hcrc⟩
  have hne : a + k ≠ x := by omega
  exact (Cells.read_write_of_ne s.mem b hne).trans (hmem k hk)

theorem perform_crcTracksMemory {m : Move} {s t : State} (hinv : s.Inv) (h : s.CrcTracksMemory)
    (ht : perform m s = .next t) : t.CrcTracksMemory := by
  cases m with
  | engine => exact engineStep_crcTracksMemory hinv h ht
  | access a => exact performAccess_crcTracksMemory h ht
  | load host a => exact loadByte_crcTracksMemory h ht
  | store a b => exact storeByte_crcTracksMemory hinv h ht
  | waitIdle host => cases ht; exact pollStatus_crcTracksMemory h host
  | reset => cases ht; exact State.crcTracksMemory_of_idle rfl

/-! ### What the engine takes in (R40, R49, R84, R96) -/

/-- `s` with other contents of BUF_ADDR, BUF_LEN and memory. -/
def State.withInputs (x y : Word) (m : Memory) (s : State) : State := { s with bufAddr := x, bufLen := y, mem := m }

/-- The outcome with its next state, if it is one, changed. -/
def mapNext (g : State → State) : Host.Outcome State Fault Refusal → Host.Outcome State Fault Refusal
  | .next t => .next (g t)
  | .fault f => .fault f
  | .refused r => .refused r

theorem State.readBytes_congr {s t : State} {a n : Nat} (h : ∀ k < n, t.memRead (a + k) = s.memRead (a + k)) :
    t.readBytes a n = s.readBytes a n := by
  induction n with
  | zero => rfl
  | succ n ih => rw [State.readBytes, State.readBytes, ih fun k hk => h k (by omega), h n (by omega)]

section WithInputs

variable {s : State} (x y : Word) {m : Memory}

@[simp] theorem State.withInputs_ptrValue : (s.withInputs x y m).ptrValue = s.ptrValue := rfl
@[simp] theorem State.withInputs_remValue : (s.withInputs x y m).remValue = s.remValue := rfl
@[simp] theorem State.withInputs_crcValue : (s.withInputs x y m).crcValue = s.crcValue := rfl
@[simp] theorem State.withInputs_table : (s.withInputs x y m).table = s.table := rfl
@[simp] theorem State.withInputs_lookup : (s.withInputs x y m).lookup = s.lookup := rfl

theorem buildStep_withInputs (i : Byte) (c : Chain) :
    buildStep i c (s.withInputs x y m) = (buildStep i c s).withInputs x y m := by
  rw [buildStep, buildStep, State.withInputs_table]
  -- The row need not be computed: the step writes it to the table, whatever it is.
  generalize buildRow i s.table = T
  split
  · rfl
  · cases c <;> rfl

theorem windowStep_withInputs (h : ∀ k < 16, m.read (s.ptrValue + k) = s.mem.read (s.ptrValue + k)) :
    windowStep (s.withInputs x y m) = mapNext (State.withInputs x y m) (windowStep s) := by
  have hread : (s.withInputs x y m).readBytes s.ptrValue 16 = s.readBytes s.ptrValue 16 :=
    State.readBytes_congr fun k hk => State.memRead_congr (h k hk) rfl
  unfold windowStep
  rw [State.withInputs_ptrValue, hread, State.withInputs_crcValue, State.withInputs_lookup]
  cases s.readBytes s.ptrValue 16 with
  | error f => rfl
  | ok v =>
    cases hc : windowCrc s.lookup s.crcValue (fun k => v[k.val]) with
    | none => simp only [hc, mapNext]
    | some c => simp only [hc, mapNext]; rfl

theorem byteStep_withInputs (h : m.read s.ptrValue = s.mem.read s.ptrValue) :
    byteStep (s.withInputs x y m) = mapNext (State.withInputs x y m) (byteStep s) := by
  have hread : (s.withInputs x y m).memRead s.ptrValue = s.memRead s.ptrValue := State.memRead_congr h rfl
  unfold byteStep
  rw [State.withInputs_ptrValue, hread, State.withInputs_crcValue, State.withInputs_lookup]
  cases s.memRead s.ptrValue with
  | error f => rfl
  | ok b =>
    cases hc : byteCrc s.lookup s.crcValue b with
    | none => simp only [hc, mapNext]
    | some c => simp only [hc, mapNext]; rfl

/-- In phase CRC a micro-step takes in nothing but bytes still to be read. -/
theorem crcStep_withInputs (h : ∀ k < s.remValue, m.read (s.ptrValue + k) = s.mem.read (s.ptrValue + k)) :
    crcStep (s.withInputs x y m) = mapNext (State.withInputs x y m) (crcStep s) := by
  rw [crcStep, crcStep, State.withInputs_remValue]
  split
  · exact windowStep_withInputs x y fun k hk => h k (by omega)
  · split
    · exact byteStep_withInputs x y (h 0 (by omega))
    · rfl

/-- The engine takes in neither BUF_ADDR nor BUF_LEN, and of memory the bytes that a running CRC phase has still to read. -/
theorem engineStep_withInputs
    (h : s.phase = .crc → ∀ k < s.remValue, m.read (s.ptrValue + k) = s.mem.read (s.ptrValue + k)) :
    engineStep (s.withInputs x y m) = mapNext (State.withInputs x y m) (engineStep s) := by
  cases hp : s.phase with
  | idle => rw [engineStep_idle hp, engineStep_idle (s := s.withInputs x y m) hp]; rfl
  | build i c =>
    rw [engineStep_build hp, engineStep_build (s := s.withInputs x y m) hp, buildStep_withInputs]
    rfl
  | crc =>
    rw [engineStep_crc hp, engineStep_crc (s := s.withInputs x y m) hp]
    exact crcStep_withInputs x y (h hp)

end WithInputs

/-- With memory as it is, what BUF_ADDR and BUF_LEN hold does not matter to the engine (R40, R84). -/
theorem engineStep_withOperands (s : State) (x y : Word) :
    engineStep { s with bufAddr := x, bufLen := y } = mapNext (State.withInputs x y s.mem) (engineStep s) :=
  engineStep_withInputs x y fun _ _ _ => rfl

/-- The bytes that a running CRC phase has still to read lie in the latched range (R30, R31, R96). -/
theorem State.Inv.remaining_in_range {s : State} (h : s.Inv) (hp : s.phase = .crc) {a len k : Nat}
    (ha : s.addr0 = some a) (hl : s.len0 = some len) (hk : k < s.remValue) : ∃ j < len, s.ptrValue + k = a + j := by
  obtain ⟨a', len', p, n, -, ha', hl', hptr, hrem, -, hap, hsum, -⟩ := h.latched (.inl hp)
  obtain rfl := Option.some.inj (ha.symm.trans ha')
  obtain rfl := Option.some.inj (hl.symm.trans hl')
  rw [State.remValue_some hrem] at hk
  rw [State.ptrValue_some hptr]
  exact ⟨p - a + k, by omega, by omega⟩

/-! ### Register accesses (R39 to R42) -/

theorem performAccess_of_read {a : HostAccess} {s : State} {r : Reg} (hr : selectReg s.platform a = .ok r)
    (hk : a.kind = .read) : performAccess a s = .next (s.answer a.host (s.regRead r)) := by
  simp only [performAccess, hr, hk]

theorem performAccess_of_write {a : HostAccess} {s : State} {r : Reg} {w : Word} (hr : selectReg s.platform a = .ok r)
    (hk : a.kind = .write w) : performAccess a s = regWrite r w s := by
  simp only [performAccess, hr, hk]

/-- An access that answers a next state has selected a register, which it reads or writes. -/
theorem performAccess_selects {a : HostAccess} {s t : State} (h : performAccess a s = .next t) :
    ∃ r, selectReg s.platform a = .ok r ∧
      ((a.kind = .read ∧ t = s.answer a.host (s.regRead r)) ∨ ∃ w, a.kind = .write w ∧ regWrite r w s = .next t) := by
  unfold performAccess at h
  split at h
  · cases h
  · refine ⟨_, ‹_›, ?_⟩
    split at h
    · exact .inl ⟨‹_›, (Host.Outcome.next.inj h).symm⟩
    · exact .inr ⟨_, ‹_›, h⟩
    · cases h

/-- A read by a host does not change what registers hold (R42). -/
theorem State.regRead_answer (s : State) (host : Nat) (v : Word) (r : Reg) : (s.answer host v).regRead r = s.regRead r := by
  cases r <;> rfl

/-- A write of any register but CMD, made twice, does what it does once (R42). -/
theorem regWrite_again {r : Reg} {w : Word} {s t : State} (hr : r ≠ .cmd) (h : regWrite r w s = .next t) :
    t.platform = s.platform ∧ regWrite r w t = .next t := by
  cases r with
  | cmd => exact absurd rfl hr
  | status | result | reserved | bufAddr | bufLen => cases h; exact ⟨rfl, rfl⟩

/-- A CMD write is answered with a next state, whatever the word (R62, R63). -/
theorem dispatchWord_next (w : Word) (s : State) : ∃ t, dispatchWord w s = .next t := by
  cases hd : decode w with
  | ok i => exact ⟨_, (dispatchWord_of_ok hd s).trans (exec_eq_issue i s)⟩
  | error e => exact ⟨_, dispatchWord_of_error hd s⟩

theorem regWrite_next (r : Reg) (w : Word) (s : State) : ∃ t, regWrite r w s = .next t := by
  cases r with
  | cmd => exact dispatchWord_next w s
  | status | result | reserved | bufAddr | bufLen => exact ⟨_, rfl⟩

/-- Inside the block the offsets of the registers are the multiples of 4 (R15). -/
theorem regAt_eq_none_iff {o : Nat} (ho : o < 32) : regAt o = none ↔ o % 4 ≠ 0 := by
  revert o; decide

theorem regAt_of_aligned {o : Nat} (ho : o < 32) (hm : o % 4 = 0) : ∃ r, regAt o = some r :=
  Option.ne_none_iff_exists'.1 fun hn => (regAt_eq_none_iff ho).1 hn hm

section InsideTheBlock

variable (s : State) (host : Nat) {o : Nat} (ho : o < 32)

include ho

theorem performAccess_of_width {bits : Nat} (hb : bits ≠ 32) (k : AccessKind) :
    performAccess ⟨host, s.platform.crcBase + o, bits, k⟩ s = .refused .mmioWidth := by
  have hin : ¬ (s.platform.crcBase + o < s.platform.crcBase ∨ s.platform.crcBase + 32 ≤ s.platform.crcBase + o) := by
    omega
  simp only [performAccess, selectReg, if_neg hin, if_pos hb]

theorem performAccess_of_misaligned (hm : o % 4 ≠ 0) (k : AccessKind) :
    performAccess ⟨host, s.platform.crcBase + o, 32, k⟩ s = .refused .mmioMisaligned := by
  rw [performAccess, selectReg_offset ho, (regAt_eq_none_iff ho).2 hm]
  rfl

theorem performAccess_of_atomic (hm : o % 4 = 0) :
    performAccess ⟨host, s.platform.crcBase + o, 32, .atomic⟩ s = .refused .mmioAtomic := by
  obtain ⟨r, hr⟩ := regAt_of_aligned ho hm
  rw [performAccess, selectReg_offset ho, hr]
  rfl

/-- An access that meets the conditions of R41 is answered with a next state. -/
theorem performAccess_of_wellFormed (hm : o % 4 = 0) {k : AccessKind} (hk : k ≠ .atomic) :
    ∃ t, performAccess ⟨host, s.platform.crcBase + o, 32, k⟩ s = .next t := by
  obtain ⟨r, hr⟩ := regAt_of_aligned ho hm
  cases k with
  | read => exact ⟨_, performAccess_read ho hr s host⟩
  | write w => rw [performAccess_write ho hr s host w]; exact regWrite_next r w s
  | atomic => exact absurd rfl hk

end InsideTheBlock

/-- The record of a refusal writes the refusal field alone. -/
theorem State.record_of_refused {s : State} {r : Refusal} (h : step s = .refused r) :
    s.record = { s with refusal := some r } := by
  simp only [State.record, h]

/-- A state that records a refusal and no fault answers the refusal, whatever else it holds. -/
theorem step_of_refusal {s : State} {r : Refusal} (hf : s.fault = none) (hr : s.refusal = some r) :
    step s = .refused r := by
  simp only [step, hf, hr]

/-! ### Stores into the latched range (R54) -/

theorem storeByte_of_latched {x : Nat} {b : Byte} {s : State} (hx : x < s.memSize) (h : s.inLatchedRange x = true) :
    storeByte x b s = .fault (.hazardBufferWrite x) := by
  rw [storeByte, if_neg (Nat.not_le.2 hx), if_pos h]

/-! ### The obligations -/

/-- Settles O58: the engine's bytes extend the recurrence, a command starts it, and no store touches what has been read. -/
theorem stepKeepsTheAccumulatorTrue : Obligations.StepKeepsTheAccumulatorTrue := by
  intro s t hinv h ht
  obtain ⟨-, -, ⟨-, he⟩ | ⟨m, rest, -, hm⟩⟩ := step_cases ht
  · exact engineStep_crcTracksMemory hinv h he
  · exact perform_crcTracksMemory (hinv.setAgenda rest) h hm

/-- Settles O17: the read at each register's offset answers the register. -/
theorem hostReadsReturn : Obligations.HostReadsReturn := by
  refine ⟨fun s h => ⟨?_, ?_, ?_, ?_, ?_, fun o ho => ?_⟩, rfl⟩
  · exact performAccess_read (r := .cmd) (by decide) rfl s h
  · exact performAccess_read (r := .status) (by decide) rfl s h
  · exact performAccess_read (r := .bufAddr) (by decide) rfl s h
  · exact performAccess_read (r := .bufLen) (by decide) rfl s h
  · exact performAccess_read (r := .result) (by decide) rfl s h
  · obtain ⟨hread, -⟩ := reservedOffsetsDoNothing o ho s h 0#32
    exact hread

/-- Settles O18: the write at each register's offset writes the register, and the engine takes in neither BUF_ADDR nor
BUF_LEN. -/
theorem hostWritesDo : Obligations.HostWritesDo := by
  refine ⟨fun s h w => ⟨?_, ?_, ?_, ?_, ?_, fun o ho => ?_⟩, fun s t x y ht => ?_, fun s h hp => ?_⟩
  · exact performAccess_write (r := .cmd) (by decide) rfl s h w
  · exact performAccess_write (r := .status) (by decide) rfl s h w
  · exact performAccess_write (r := .bufAddr) (by decide) rfl s h w
  · exact performAccess_write (r := .bufLen) (by decide) rfl s h w
  · exact performAccess_write (r := .result) (by decide) rfl s h w
  · obtain ⟨-, hwrite⟩ := reservedOffsetsDoNothing o ho s h w
    exact hwrite
  · rw [engineStep_withOperands, ht, ← engineStep_mem ht]
    rfl
  · have hwrite := performAccess_write (o := 0x08) (by decide) rfl s h 0x00001000#32
    rw [regWrite, truncAddr_of_addrW_eq hp] at hwrite
    exact ⟨_, hwrite, performAccess_read (o := 0x08) (by decide) rfl _ h⟩

/-- Settles O22: inside the block the first broken condition of width, alignment and atomicity names the refusal. -/
theorem malformedAccessesAreRefused : Obligations.MalformedAccessesAreRefused := by
  constructor
  · rintro s ⟨host, addr, bits, k⟩ hlow hhigh
    obtain ⟨o, rfl⟩ := Nat.exists_eq_add_of_le hlow
    have ho : o < 32 := Nat.add_lt_add_iff_left.1 hhigh
    simp only [Nat.add_sub_cancel_left]
    refine ⟨fun hb _ _ => performAccess_of_width s host ho hb k, ?_, ?_, fun hbad => ?_, ?_⟩
    · rintro rfl hm -
      exact performAccess_of_misaligned s host ho hm k
    · rintro rfl hm rfl
      exact performAccess_of_atomic s host ho hm
    · by_cases hb : bits = 32
      · subst hb
        by_cases hm : o % 4 = 0
        · obtain rfl : k = .atomic := (hbad.resolve_left (absurd rfl)).resolve_left (absurd hm)
          exact ⟨_, performAccess_of_atomic s host ho hm, .inr (.inr rfl)⟩
        · exact ⟨_, performAccess_of_misaligned s host ho hm k, .inr (.inl rfl)⟩
      · exact ⟨_, performAccess_of_width s host ho hb k, .inl rfl⟩
    · rintro rfl hm hk
      exact performAccess_of_wellFormed s host ho hm hk
  · intro s r h hf _
    have hrec := State.record_of_refused h
    exact ⟨hrec, step_of_refusal (by rw [hrec]; exact hf) (by rw [hrec])⟩

/-- Settles O23: a read changes the answer alone, and a write of a register but CMD stores the same word again; BUILD_TABLE
written twice to the reset block is accepted and then dropped with BUSY_REJECT. -/
theorem readsHaveNoSideEffects : Obligations.ReadsHaveNoSideEffects := by
  refine ⟨fun a s t hk h => ?_, fun a s t hcmd h => ?_, ?_⟩
  · obtain ⟨r, -, ⟨-, rfl⟩ | ⟨w, hw, -⟩⟩ := performAccess_selects h
    · rfl
    · cases hk.symm.trans hw
  · obtain ⟨r, hr, ⟨hk, rfl⟩ | ⟨w, hk, hw⟩⟩ := performAccess_selects h
    · rw [performAccess_of_read (s := s.answer a.host (s.regRead r)) hr hk, State.regRead_answer]
      rfl
    · obtain ⟨hplat, hagain⟩ := regWrite_again (fun hc => hcmd (hc ▸ hr)) hw
      rw [performAccess_of_write (hplat ▸ hr) hk, hagain]
  · exact ⟨State.reset, _, _, 0x00000001#32, rfl, rfl, by decide⟩

/-- Settles O27: the store is looked up in the latched range, at the store and at the step that performs it. -/
theorem storeIntoTheRangeFaults : Obligations.StoreIntoTheRangeFaults := by
  intro s x b a len hrun ha hlen hlow hhigh hx
  have hin : s.inLatchedRange x = true := by
    rw [s.inLatchedRange_eq_true_iff, State.addr0Value_some ha, State.len0Value_some hlen]
    exact ⟨hrun, hlow, hhigh⟩
  refine ⟨storeByte_of_latched hx hin, ?_⟩
  rintro ⟨hf, hr⟩ ⟨rest, hm⟩
  rw [step_of_noFault hf hr, takeMove_cons hm]
  exact storeByte_of_latched (s := { s with agenda := rest }) hx hin

/-- Settles O30: what is still to be read lies in the latched range, where the memories agree. -/
theorem engineReadsOnlyTheLatchedRange : Obligations.EngineReadsOnlyTheLatchedRange := by
  intro s m a len hinv ha hl hagree
  have hstep : engineStep { s with mem := m } = mapNext (State.withInputs s.bufAddr s.bufLen m) (engineStep s) := by
    refine engineStep_withInputs s.bufAddr s.bufLen fun hp k hk => ?_
    obtain ⟨j, hj, hjk⟩ := hinv.remaining_in_range hp ha hl hk
    rw [hjk]
    exact hagree j hj
  rw [hstep]
  refine ⟨fun t ht => ?_, fun f hf => by rw [hf]; rfl⟩
  obtain ⟨-, hbuf, hlen, -⟩ := engineStep_frame ht
  rw [ht, ← hbuf, ← hlen]
  rfl

end Sys2Proof.Machine

/-! Proofs of the statements on encoding (R57 to R64): the decoder and the encoder are inverse to each other, and `Dispatch` runs
the row of the written word (R62, R63). -/

namespace Sys2Proof

/-! ### The decoder is the inverse of the encoder (R57, R61) -/

theorem fieldsOf_encode (i : Instr) : fieldsOf (encode i) = i.fields := by
  cases i with
  | nop => exact Laws.WordFields.nop.1
  | buildTable => exact Laws.WordFields.buildTable.1
  | checksum p => exact (Laws.WordFields.checksum p).1
  | invalidateTable => exact Laws.WordFields.invalidateTable.1

/-- Every term of `Instr` is well formed (R58 to R60). -/
theorem Instr.wf_eq_true (i : Instr) : i.wf = true := by
  cases i with
  | nop => exact Laws.WordFields.nop.2
  | buildTable => exact Laws.WordFields.buildTable.2
  | checksum p => exact (Laws.WordFields.checksum p).2
  | invalidateTable => exact Laws.WordFields.invalidateTable.2

theorem Instr.fields_op_le (i : Instr) : i.fields.op.toNat ≤ 3 := by
  cases i <;> simp [Instr.fields]

theorem Instr.fields_rsv (i : Instr) : i.fields.rsv = 0#23 := by
  cases i <;> rfl

/-- A row whose mask is all ones matches its own word alone (R61). -/
theorem and_allOnes_mask (w : Word) : w &&& 0xFFFFFFFF#32 = w := BitVec.and_allOnes

/-- The mask of CHECKSUM's row leaves out bit 8, which is P (R59, R61). -/
theorem checksum_row_iff (w : Word) (p : Bool) :
    w &&& 0xFFFFFEFF#32 = 0x00000002#32 ∧ w.getLsbD 8 = p ↔ w = encode (.checksum p) := by
  constructor
  · rintro ⟨hrow, rfl⟩
    have hsplit : w = (w &&& 0xFFFFFEFF#32) ||| (w &&& BitVec.twoPow 32 8) := by
      rw [← BitVec.and_or_distrib_left]
      exact BitVec.and_allOnes.symm
    rw [hrow, BitVec.and_twoPow] at hsplit
    rw [hsplit]
    cases w.getLsbD 8 <;> decide
  · rintro rfl
    revert p; decide

theorem decode_encode (i : Instr) : decode (encode i) = .ok i := by
  cases i with
  | nop => decide
  | buildTable => decide
  | checksum p => revert p; decide
  | invalidateTable => decide

/-- The decoder reads an instruction from its encoding and from no other word. -/
theorem decode_eq_ok_iff {w : Word} {i : Instr} : decode w = .ok i ↔ w = encode i := by
  constructor
  · intro h
    simp only [decode, rowMatches, beq_iff_eq, and_allOnes_mask] at h
    split at h
    next hw => cases h; exact hw
    split at h
    next hw => cases h; exact hw
    split at h
    next hw => cases h; exact (checksum_row_iff w _).1 ⟨hw, rfl⟩
    split at h
    next hw => cases h; exact hw
    cases h
  · rintro rfl
    exact decode_encode i

/-- A word that decodes to no instruction is rejected under the name `whyIllegal` gives (R58 to R60, R63). -/
theorem decode_of_illegal {w : Word} (h : ∀ i, decode w ≠ .ok i) : decode w = .error (whyIllegal w) := by
  unfold decode at h ⊢
  split_ifs at h ⊢
  case neg => rfl
  all_goals exact absurd rfl (h _)

/-- The words of no row decode to no instruction (R61, R63). -/
theorem decode_ne_ok {w : Word} (h0 : w ≠ 0x00000000#32) (h1 : w ≠ 0x00000001#32)
    (h2 : w &&& 0xFFFFFEFF#32 ≠ 0x00000002#32) (h3 : w ≠ 0x00000003#32) (i : Instr) : decode w ≠ .ok i := by
  rw [Ne, decode_eq_ok_iff]
  cases i with
  | nop => exact h0
  | buildTable => exact h1
  | checksum p => exact fun hw => h2 ((checksum_row_iff w p).2 hw).1
  | invalidateTable => exact h3

/-- The table's 32-bit word is the command word itself (R57). -/
theorem decodeTableWord_of_ok {w : Word} {i : Instr} (h : decode w = .ok i) : decodeTableWord 32 w.toNat = some i := by
  have hw : BitVec.ofNat 32 (w.toNat % 2 ^ 32) = w := by
    rw [Nat.mod_eq_of_lt w.isLt, BitVec.ofNat_toNat, BitVec.setWidth_eq]
  rw [decodeTableWord, hw, h]

end Sys2Proof

namespace Sys2Proof.Machine

/-! ### `Dispatch` (R62, R63) -/

theorem dispatchWord_of_busy (w : Word) {s : State} (hp : s.phase ≠ .idle) :
    dispatchWord w s = .next (s.setErr .busyReject) := by
  cases hd : decode w with
  | ok i => rw [dispatchWord_of_ok hd, exec_of_busy i hp]
  | error e => rw [dispatchWord_of_error hd, issue_of_busy hp]

theorem dispatchWord_of_idle {w : Word} {i : Instr} {s : State} (hp : s.phase = .idle) (hd : decode w = .ok i) :
    dispatchWord w s = .next (commandBody i s.accept) := by
  rw [dispatchWord_of_ok hd, exec_of_idle i hp]

theorem dispatchWord_of_illegal {w : Word} {s : State} (hp : s.phase = .idle) (hd : ∀ i, decode w ≠ .ok i) :
    dispatchWord w s = .next (s.accept.reportError .illegalCommand) := by
  rw [dispatchWord_of_error (decode_of_illegal hd), issue_of_idle hp]
  rfl

/-! ### The obligations on the encoding -/

/-- Settles O1: the nine words, evaluated. -/
theorem sampleWordsDecode : Obligations.SampleWordsDecode := by
  unfold Obligations.SampleWordsDecode
  decide

/-- Settles O2: a row's word is its instruction's encoding, and the encodings are the five words. -/
theorem exactlyFiveWordsAreLegal : Obligations.ExactlyFiveWordsAreLegal := by
  intro w
  simp only [decode_eq_ok_iff, and_allOnes_mask]
  refine ⟨Iff.rfl, Iff.rfl, fun p => (checksum_row_iff w p).symm, Iff.rfl, fun ⟨i, hi⟩ => ?_, fun h => ?_⟩
  · cases i with
    | nop => exact .inl hi
    | buildTable => exact .inr (.inl hi)
    | checksum p =>
      cases p with
      | false => exact .inr (.inr (.inl hi))
      | true => exact .inr (.inr (.inr (.inl hi)))
    | invalidateTable => exact .inr (.inr (.inr (.inr hi)))
  · obtain h | h | h | h | h := h
    · exact ⟨.nop, h⟩
    · exact ⟨.buildTable, h⟩
    · exact ⟨.checksum false, h⟩
    · exact ⟨.checksum true, h⟩
    · exact ⟨.invalidateTable, h⟩

/-- Settles O3: decoding is the inverse of encoding, in both directions. -/
theorem decodeAndEncodeAgree : Obligations.DecodeAndEncodeAgree :=
  ⟨fun i => ⟨i.wf_eq_true, decode_encode i, decodeTableWord_of_ok (decode_encode i)⟩,
    fun _ _ h => (decode_eq_ok_iff.1 h).symm⟩

/-- Settles O4: a legal word is an encoding, whose fields are those of its instruction. -/
theorem reservedFieldsAreIllegal : Obligations.ReservedFieldsAreIllegal := by
  intro w
  have hfields (i : Instr) (h : decode w = .ok i) : fieldsOf w = i.fields := by
    rw [decode_eq_ok_iff.1 h, fieldsOf_encode]
  have hop (i : Instr) (h : decode w = .ok i) : w.extractLsb' 0 8 = i.fields.op :=
    congrArg CommandFields.op (hfields i h)
  refine ⟨hop, ⟨rfl, rfl, fun _ => rfl, rfl⟩, fun hlarge => ⟨_, decode_of_illegal fun i hi => ?_⟩, fun hrsv => ?_⟩
  · rw [hop i hi] at hlarge
    exact Nat.not_lt.2 i.fields_op_le hlarge
  · have hillegal (i : Instr) (hi : decode w = .ok i) : False :=
      hrsv ((congrArg CommandFields.rsv (hfields i hi)).trans i.fields_rsv)
    rw [decode_of_illegal hillegal, whyIllegal, if_pos]
    simpa [CommandFields.rsvZero, fieldsOf] using hrsv

/-- Settles O5: BUSY is looked at first, and on the idle engine each row runs the body of its command. -/
theorem dispatchFollowsTheRows : Obligations.DispatchFollowsTheRows := by
  refine fun w s => ⟨dispatchWord_of_busy w, fun hp a ha => ?_⟩
  obtain rfl : a = s.accept := ha
  refine ⟨fun hw => ?_, fun hw => ?_, fun hw => ?_, fun hw => ?_, fun h0 h1 h2 h3 => ?_⟩
  · exact dispatchWord_of_idle (i := .nop) hp (decode_eq_ok_iff.2 hw)
  · exact dispatchWord_of_idle (i := .buildTable) hp (decode_eq_ok_iff.2 hw)
  · exact dispatchWord_of_idle hp (decode_eq_ok_iff.2 ((checksum_row_iff w _).1 ⟨hw, rfl⟩))
  · exact dispatchWord_of_idle (i := .invalidateTable) hp (decode_eq_ok_iff.2 hw)
  · exact dispatchWord_of_illegal hp (decode_ne_ok h0 h1 h2 h3)

/-- Settles O6: an illegal word is reported, and the four examples are words of no row. -/
theorem illegalWordIsReported : Obligations.IllegalWordIsReported := by
  refine ⟨fun w s hp hd => dispatchWord_of_illegal hp hd, fun w hw => ?_⟩
  have hrows : w ≠ 0x00000000#32 ∧ w ≠ 0x00000001#32 ∧ w &&& 0xFFFFFEFF#32 ≠ 0x00000002#32 ∧ w ≠ 0x00000003#32 := by
    simp only [List.mem_cons, List.not_mem_nil, or_false] at hw
    obtain rfl | rfl | rfl | rfl := hw <;> decide
  obtain ⟨h0, h1, h2, h3⟩ := hrows
  exact decode_ne_ok h0 h1 h2 h3

end Sys2Proof.Machine

/-! Proofs of the statements on host programs: a WAITIDLE polls exactly while BUSY reads 1 (R68), and the program CRC32 ends
with the checksum of its buffer (R67, R90, R135). -/

namespace Sys2Proof.Machine

/-! ### Moves of a host program (R66 to R68) -/

theorem regAt_regOffset (r : Reg) : regAt (regOffset r) = some r := by cases r <;> rfl

theorem regOffset_lt (r : Reg) : regOffset r < 32 := by cases r <;> decide

section ProgramSteps

variable {s : State} {host : Nat} {rest : List Move} (hn : s.NoFault)

include hn

/-- A step whose move stands on the agenda performs it. -/
theorem step_of_move {m : Move} (ha : s.agenda = m :: rest) : step s = perform m { s with agenda := rest } := by
  rw [step_of_noFault hn.1 hn.2, takeMove_cons ha]

/-- The step of a line `WR` or `CMD` (R66). -/
theorem step_of_regWrite {r : Reg} {w : Word} (ha : s.agenda = regAccess s.platform host r (.write w) :: rest) :
    step s = regWrite r w { s with agenda := rest } := by
  rw [step_of_move hn ha]
  exact performAccess_write (regOffset_lt r) (regAt_regOffset r) { s with agenda := rest } host w

/-- The step of a line `RD` (R66). -/
theorem step_of_regRead {r : Reg} (ha : s.agenda = regAccess s.platform host r .read :: rest) :
    step s = .next (State.answer host (s.regRead r) { s with agenda := rest }) := by
  rw [step_of_move hn ha]
  refine (performAccess_read (regOffset_lt r) (regAt_regOffset r) { s with agenda := rest } host).trans ?_
  cases r <;> rfl

/-- A WAITIDLE on the busy engine reads STATUS, lets the engine move and polls again (R68). -/
theorem step_of_waitIdle_busy (ha : s.agenda = .waitIdle host :: rest) (hp : s.phase ≠ .idle) :
    step s = .next { s.answer host s.statusWord with agenda := .engine :: .waitIdle host :: rest } := by
  rw [step_of_move hn ha]
  obtain ⟨-, hpoll⟩ | ⟨hidle, -⟩ := pollStatus_cases host { s with agenda := rest }
  · exact congrArg Host.Outcome.next hpoll
  · exact absurd ((State.busy_eq_false_iff _).1 hidle) hp

/-- A WAITIDLE on the idle engine reads STATUS and is over (R68). -/
theorem step_of_waitIdle_idle (ha : s.agenda = .waitIdle host :: rest) (hp : s.phase = .idle) :
    step s = .next { s.answer host s.statusWord with agenda := rest } := by
  rw [step_of_move hn ha]
  obtain ⟨hbusy, -⟩ | ⟨-, hpoll⟩ := pollStatus_cases host { s with agenda := rest }
  · exact absurd hp ((State.busy_eq_true_iff _).1 hbusy)
  · exact congrArg Host.Outcome.next hpoll

end ProgramSteps

/-- An address that exists is stored whole in BUF_ADDR (R22). -/
theorem truncAddr_of_lt {s : State} {w : Word} (h : w.toNat < s.memSize) : truncAddr s.platform w = w := by
  apply BitVec.eq_of_toNat_eq
  rw [truncAddr_toNat]
  exact Nat.mod_eq_of_lt h

theorem State.Inv.setOperands {s : State} (h : s.Inv) {addr : Word} (ha : addr.toNat < s.memSize) (len : Word)
    (moves : List Move) : ({ s with bufAddr := addr, bufLen := len, agenda := moves } : State).Inv :=
  { h with bufAddrFits := ha }

/-! ### Runs of a host program (R135) -/

/-- The run of the host's program from `s` ends (R135), in a state with `Post`. -/
def State.RunEnds (host : Nat) (Post : State → Prop) (s : State) : Prop :=
  ∃ n t, State.ProgramEndsAt host n s t ∧ Post t

theorem Move.isProgramAccess_waitIdle (host : Nat) : (Move.waitIdle host).isProgramAccess host = true :=
  beq_self_eq_true host

theorem isProgramAccess_regAccess (p : Platform) (host : Nat) (r : Reg) (k : AccessKind) :
    (regAccess p host r k).isProgramAccess host = true :=
  beq_self_eq_true host

theorem State.not_programDone_of_mem {s : State} {host : Nat} {m : Move} {moves : List Move} (ha : s.agenda = moves)
    (hm : m ∈ moves) (h : m.isProgramAccess host = true) : ¬ s.ProgramDone host :=
  fun hd => Bool.false_ne_true ((hd m (ha ▸ hm)).symm.trans h)

/-- A program with no access left has ended. -/
theorem State.RunEnds.now {host : Nat} {Post : State → Prop} {s : State} (hd : s.ProgramDone host) (hf : s.fault = none)
    (h : Post s) : s.RunEnds host Post :=
  ⟨0, s, ⟨steps_zero s, hd, hf, nofun⟩, h⟩

/-- A run with an access left ends if it ends from the next state. -/
theorem State.RunEnds.of_step {host : Nat} {Post : State → Prop} {s u : State} (hs : step s = .next u)
    (hd : ¬ s.ProgramDone host) (h : u.RunEnds host Post) : s.RunEnds host Post := by
  obtain ⟨n, t, ⟨hrun, hdone, hf, hbefore⟩, hpost⟩ := h
  have hcut (m : Nat) : steps (m + 1) s = steps m u := by rw [steps, hs]
  refine ⟨n + 1, t, ⟨(hcut n).trans hrun, hdone, hf, fun m hm v hv => ?_⟩, hpost⟩
  cases m with
  | zero => cases hv; exact hd
  | succ m => exact hbefore m (by omega) v ((hcut m).symm.trans hv)

/-! ### `Checksum(S)` is the canonical CRC (R90, R91) -/

/-- The whole windows take in their bytes one by one (R91). -/
theorem afterWindows_eq_bytewiseFrom (b : Nat → Byte) (q : Nat) :
    afterWindows b q = bytewiseFrom crcInit b (16 * q) := by
  induction q with
  | zero => rfl
  | succ q ih =>
    rw [afterWindows, ih, windowFormula_eq_bytewiseFrom _ fun k => b (16 * q + k), Nat.mul_succ, bytewiseFrom_add]

theorem checksumOf_eq_canonicalCrc (b : Nat → Byte) (n : Nat) : checksumOf b n = canonicalCrc b n := by
  rw [checksumOf, afterWindows_eq_bytewiseFrom, ← bytewiseFrom_add, Nat.div_add_mod, canonicalCrc]

/-! ### The micro-steps on bytes that memory admits (R86, R87) -/

section WholeTable

variable {s : State} (hT : ∀ t < 16, ∀ i, s.lookup t i = some (tableValue t i))

include hT

/-- A WindowStep with a whole table takes in the 16 bytes it reads, those that `x` gives for their addresses (R86). -/
theorem windowStep_of_bytes {x : Nat → Byte} (hx : ∀ k < 16, s.memRead (s.ptrValue + k) = .ok (x (s.ptrValue + k))) :
    windowStep s = .next (s.advanceCrc (windowFormula s.crcValue fun k => x (s.ptrValue + k.val)) 16) := by
  have hread : s.readBytes s.ptrValue 16 = .ok (Vector.ofFn fun k : Fin 16 => x (s.ptrValue + k.val)) :=
    State.readBytes_eq_ok_iff.2 fun k hk => by rw [hx k hk, Vector.getElem_ofFn]
  refine windowStep_next_iff.2 ⟨_, _, hread, windowCrc_of_table hT _ _, ?_⟩
  simp only [Vector.getElem_ofFn]

/-- A ByteStep with a whole table takes in the byte it reads (R87). -/
theorem byteStep_of_byte {x : Byte} (hx : s.memRead s.ptrValue = .ok x) :
    byteStep s = .next (s.advanceCrc (byteFormula s.crcValue x) 1) :=
  byteStep_next_iff.2 ⟨x, _, hx, byteCrc_of_table hT _ _, rfl⟩

end WholeTable

theorem crcStep_window {s : State} (h : 16 ≤ s.remValue) : crcStep s = windowStep s := if_pos h

theorem crcStep_byte {s : State} (h : s.remValue < 16) (h' : 1 ≤ s.remValue) : crcStep s = byteStep s := by
  rw [crcStep, if_neg (Nat.not_le.2 h), if_pos h']

theorem crcStep_final {s : State} (h : s.remValue = 0) : crcStep s = finalStep s := by
  simp [crcStep, h]

/-! ### A running CHECKSUM over an admitted buffer (R83 to R90) -/

/-- A CHECKSUM of the admitted buffer `[a, a + len)`, whose bytes are `b`, is running. -/
structure State.Computes (a len : Nat) (b : Nat → Byte) (s : State) : Prop where
  noFault : s.NoFault
  inv : s.Inv
  tracks : s.CrcTracksMemory
  running : s.ChecksumRunning
  addr0_eq : s.addr0 = some a
  len0_eq : s.len0 = some len
  buffer : s.HoldsBuffer a len b

/-- A bound on the micro-steps that a running operation has still to take. -/
def State.workLeft (s : State) : Nat :=
  match s.phase with
  | .idle => 0
  | .build i _ => 256 - i.toNat + s.remValue + 1
  | .crc => s.remValue + 1

theorem State.workLeft_build {s : State} {i : Byte} {c : Chain} (h : s.phase = .build i c) :
    s.workLeft = 256 - i.toNat + s.remValue + 1 := by simp [workLeft, h]

theorem State.workLeft_crc {s : State} (h : s.phase = .crc) : s.workLeft = s.remValue + 1 := by simp [workLeft, h]

/-- A build micro-step before a checksum leaves the CHECKSUM running, with less to do (R74, R75). -/
theorem buildStep_checksum_progress {i : Byte} {s : State} (hp : s.phase = .build i .checksum) :
    (buildStep i .checksum s).ChecksumRunning ∧ (buildStep i .checksum s).workLeft < s.workLeft := by
  rw [State.workLeft_build hp]
  obtain ⟨hi, hb⟩ | ⟨-, hc, -⟩ | ⟨rfl, -, hb⟩ := buildStep_cases i .checksum s
  · have hsucc : (i + 1#8).toNat = i.toNat + 1 := by rw [BitVec.toNat_add]; simp; omega
    rw [hb, State.workLeft_build rfl, hsucc]
    refine ⟨.inr ⟨_, rfl⟩, ?_⟩
    simp only [State.remValue]
    omega
  · cases hc
  · rw [hb, State.workLeft_crc rfl]
    refine ⟨.inl rfl, ?_⟩
    simp only [State.remValue]
    omega

/-- Taking in bytes that are still to be read leaves less to do (R86, R87). -/
theorem State.advanceCrc_progress {s : State} (hp : s.phase = .crc) {k : Nat} (h0 : 0 < k) (hk : k ≤ s.remValue)
    (crc : Word) : (s.advanceCrc crc k).ChecksumRunning ∧ (s.advanceCrc crc k).workLeft < s.workLeft := by
  refine ⟨.inl hp, ?_⟩
  rw [workLeft_crc hp, workLeft_crc (s := s.advanceCrc crc k) hp, remValue_some (s.advanceCrc_rem crc k)]
  omega

/-- CHECKSUM with P = 1 as one update: only the phase it enters depends on the table (R81, R83). -/
theorem commandBody_checksum (s : State) : commandBody (.checksum true) s =
    { s.startCrc with phase := if s.tableValid then .crc else .build 0#8 .checksum } := by
  cases hv : s.tableValid <;> simp [commandBody, checksumBody, hv]

/-- An accepted CHECKSUM of an admitted buffer is running over it (R81, R84). -/
theorem State.Computes.of_start {s : State} {b : Nat → Byte} (hn : s.NoFault) (hinv : s.Inv) (hp : s.phase = .idle)
    (hbuf : s.HoldsBuffer s.bufAddr.toNat s.bufLen.toNat b) :
    (commandBody (.checksum true) s.accept).Computes s.bufAddr.toNat s.bufLen.toNat b := by
  have hinv' := commandBody_inv hinv.accept hp rfl (.checksum true)
  have htracks := commandBody_crcTracksMemory (s := s.accept) hp (.checksum true)
  rw [commandBody_checksum] at hinv' htracks ⊢
  refine ⟨hn, hinv', htracks, ?_, rfl, rfl, hbuf⟩
  cases hv : s.accept.tableValid with
  | true => exact .inl rfl
  | false => exact .inr ⟨0#8, rfl⟩

section Computes

variable {a len : Nat} {b : Nat → Byte} {s t : State} (h : s.Computes a len b)

include h

theorem State.Computes.phase_ne_idle : s.phase ≠ .idle :=
  fun hp => State.not_checksumRunning_of_idle hp h.running

/-- The engine reads every byte that is still to be read. -/
theorem State.Computes.memRead_remaining (hp : s.phase = .crc) {k : Nat} (hk : k < s.remValue) :
    s.memRead (s.ptrValue + k) = .ok (s.mem.byteAt (s.ptrValue + k)) := by
  obtain ⟨hfits, hbytes⟩ := h.buffer
  obtain ⟨j, hj, hjk⟩ := h.inv.remaining_in_range hp h.addr0_eq h.len0_eq hk
  rw [hjk]
  exact State.memRead_eq_ok_iff.2 ⟨by omega, Memory.read_byteAt (hbytes j hj)⟩

/-- An engine step that leaves the CHECKSUM running leaves it running over the same buffer (R49, R96). -/
theorem State.Computes.of_engineStep (ht : engineStep s = .next t) (hrun : t.ChecksumRunning) : t.Computes a len b := by
  obtain ⟨-, -, -, haddr, hlen, hfault, hrefusal, hplat, hmem, -⟩ := engineStep_frame ht
  have hsize : t.memSize = s.memSize := by rw [State.memSize, State.memSize, hplat]
  exact
    { noFault := ⟨hfault.trans h.noFault.1, hrefusal.trans h.noFault.2⟩
      inv := engineStep_inv h.inv ht
      tracks := engineStep_crcTracksMemory h.inv h.tracks ht
      running := hrun
      addr0_eq := haddr.trans h.addr0_eq
      len0_eq := hlen.trans h.len0_eq
      buffer := by rw [State.HoldsBuffer, hsize, hmem]; exact h.buffer }

/-- Neither the schedule nor what hosts read matters to a running CHECKSUM. -/
theorem State.Computes.poll (host : Nat) (v : Word) (moves : List Move) :
    State.Computes a len b { s.answer host v with agenda := moves } :=
  { noFault := h.noFault
    inv := (h.inv.answer host v).setAgenda moves
    tracks := h.tracks
    running := h.running
    addr0_eq := h.addr0_eq
    len0_eq := h.len0_eq
    buffer := h.buffer }

/-- With no byte left to read the accumulator is the CRC of the whole buffer (R90, R91). -/
theorem State.Computes.crc_of_rem_zero (hr : s.remValue = 0) : s.crcValue = bytewiseFrom crcInit b len := by
  obtain ⟨a', n, d, haddr, hptr, hread, hcrc⟩ := h.tracks h.running
  obtain ⟨a'', len', p, r, -, haddr', hlen, hptr', hrem, -, -, hsum, -⟩ := h.inv.latched h.running
  obtain rfl := Option.some.inj (h.addr0_eq.symm.trans haddr)
  obtain rfl := Option.some.inj (h.addr0_eq.symm.trans haddr')
  obtain rfl := Option.some.inj (h.len0_eq.symm.trans hlen)
  obtain rfl := Option.some.inj (hptr.symm.trans hptr')
  rw [State.remValue_some hrem] at hr
  obtain rfl : n = len := by omega
  obtain ⟨-, hbytes⟩ := h.buffer
  rw [State.crcValue_some hcrc]
  exact bytewiseFrom_congr fun k hk => Option.some.inj ((hread k hk).symm.trans (hbytes k hk))

/-- While bytes are left to read, a micro-step of phase CRC takes some of them in (R85). -/
theorem State.Computes.crcStep_advances (hp : s.phase = .crc) (hrem : 0 < s.remValue) :
    ∃ crc k, 0 < k ∧ k ≤ s.remValue ∧ crcStep s = .next (s.advanceCrc crc k) := by
  have hT := h.inv.lookup_of_crc hp
  rcases Nat.lt_or_ge s.remValue 16 with hbyte | hwindow
  · have hread := h.memRead_remaining hp hrem
    exact ⟨_, 1, Nat.one_pos, hrem, (crcStep_byte hbyte hrem).trans (byteStep_of_byte hT hread)⟩
  · have hreads (k : Nat) (hk : k < 16) := h.memRead_remaining hp (Nat.lt_of_lt_of_le hk hwindow)
    exact ⟨_, 16, Nat.succ_pos 15, hwindow, (crcStep_window hwindow).trans (windowStep_of_bytes hT hreads)⟩

/-- With no byte left to read, the micro-step of phase CRC ends the operation with the buffer's checksum (R88, R90). -/
theorem State.Computes.crcStep_ends (hr : s.remValue = 0) :
    ∃ t, crcStep s = .next t ∧ t.Ended ∧ t.result = checksumOf b len := by
  obtain ⟨hfault, -⟩ := h.noFault
  refine ⟨_, crcStep_final hr, ⟨rfl, rfl, hfault⟩, ?_⟩
  rw [checksumOf_eq_canonicalCrc, canonicalCrc, ← h.crc_of_rem_zero hr]

/-- An engine step of a running CHECKSUM brings it nearer to its end or ends it, with the buffer's checksum in RESULT. -/
theorem State.Computes.engineStep_progress : ∃ t, engineStep s = .next t ∧
    ((t.Computes a len b ∧ t.workLeft < s.workLeft) ∨ (t.Ended ∧ t.result = checksumOf b len)) := by
  obtain hp | ⟨i, hp⟩ := h.running
  · have hengine := engineStep_crc hp
    rcases Nat.eq_zero_or_pos s.remValue with hzero | hrem
    · obtain ⟨t, hstep, hend⟩ := h.crcStep_ends hzero
      exact ⟨t, hengine.trans hstep, .inr hend⟩
    · obtain ⟨crc, k, h0, hk, hstep⟩ := h.crcStep_advances hp hrem
      obtain ⟨hrun, hless⟩ := State.advanceCrc_progress hp h0 hk crc
      exact ⟨_, hengine.trans hstep, .inl ⟨h.of_engineStep (hengine.trans hstep) hrun, hless⟩⟩
  · have hstep := engineStep_build hp
    obtain ⟨hrun, hless⟩ := buildStep_checksum_progress hp
    exact ⟨_, hstep, .inl ⟨h.of_engineStep hstep hrun, hless⟩⟩

end Computes

/-! ### The wait for the end of the operation (R68) -/

/-- `t` holds what `s` holds wherever neither the engine nor a poll writes (R3, R40, R41). -/
structure State.SameOperands (s t : State) : Prop where
  bufAddr : t.bufAddr = s.bufAddr
  bufLen : t.bufLen = s.bufLen
  mem : t.mem = s.mem
  platform : t.platform = s.platform
  refusal : t.refusal = s.refusal

theorem State.SameOperands.trans {s t u : State} (h : s.SameOperands t) (h' : t.SameOperands u) : s.SameOperands u where
  bufAddr := h'.bufAddr.trans h.bufAddr
  bufLen := h'.bufLen.trans h.bufLen
  mem := h'.mem.trans h.mem
  platform := h'.platform.trans h.platform
  refusal := h'.refusal.trans h.refusal

theorem State.sameOperands_poll (s : State) (host : Nat) (v : Word) (moves : List Move) :
    s.SameOperands { s.answer host v with agenda := moves } := ⟨rfl, rfl, rfl, rfl, rfl⟩

theorem engineStep_sameOperands {s t : State} (h : engineStep s = .next t) : s.SameOperands t := by
  obtain ⟨-, hbuf, hlen, -, -, -, hrefusal, hplat, hmem, -⟩ := engineStep_frame h
  exact ⟨hbuf, hlen, hmem, hplat, hrefusal⟩

theorem engineStep_agenda {s t : State} (h : engineStep s = .next t) : t.agenda = s.agenda := by
  obtain ⟨-, -, -, -, -, -, -, -, -, hagenda, -⟩ := engineStep_frame h
  exact hagenda

/-- `t` is a state in which a WAITIDLE begun in `s` is over, with the operation's RESULT in place and `rest` to come. -/
structure State.Awaited (s : State) (rest : List Move) (result : Word) (t : State) : Prop where
  operands : s.SameOperands t
  agenda_eq : t.agenda = rest
  ended : t.Ended
  result_eq : t.result = result

theorem State.Awaited.of_sameOperands {s t u : State} {rest : List Move} {v : Word} (hs : s.SameOperands t)
    (h : t.Awaited rest v u) : s.Awaited rest v u :=
  { h with operands := hs.trans h.operands }

section Program

variable {host : Nat} {rest : List Move} {Post : State → Prop}

/-- A run whose next move is the host's register write ends if it ends from the state after the write. -/
theorem State.RunEnds.of_regWrite {s u : State} {r : Reg} {w : Word} (hn : s.NoFault)
    (ha : s.agenda = regAccess s.platform host r (.write w) :: rest)
    (hw : regWrite r w { s with agenda := rest } = .next u) (h : u.RunEnds host Post) : s.RunEnds host Post :=
  .of_step ((step_of_regWrite hn ha).trans hw)
    (State.not_programDone_of_mem ha (.head _) (isProgramAccess_regAccess _ _ _ _)) h

/-- A WAITIDLE that finds the operation ended is over in one step. -/
theorem State.Ended.runEnds_of_wait {s : State} (he : s.Ended) (hr : s.refusal = none)
    (ha : s.agenda = .waitIdle host :: rest) (hcont : ∀ u, s.Awaited rest s.result u → u.RunEnds host Post) :
    s.RunEnds host Post := by
  obtain ⟨hp, hdone, hf⟩ := he
  exact .of_step (step_of_waitIdle_idle ⟨hf, hr⟩ ha hp)
    (State.not_programDone_of_mem ha (.head _) (Move.isProgramAccess_waitIdle host))
    (hcont _ ⟨s.sameOperands_poll _ _ _, rfl, ⟨hp, hdone, hf⟩, rfl⟩)

/-- A WAITIDLE polls until the running CHECKSUM has ended: each round takes one micro-step off what is left to do. -/
theorem State.Computes.runEnds_of_wait {a len : Nat} {b : Nat → Byte} {s : State} (h : s.Computes a len b)
    (ha : s.agenda = .waitIdle host :: rest)
    (hcont : ∀ u, s.Awaited rest (checksumOf b len) u → u.RunEnds host Post) : s.RunEnds host Post := by
  induction hn : s.workLeft using Nat.strong_induction_on generalizing s with
  | _ n ih =>
    have hpoll := step_of_waitIdle_busy h.noFault ha h.phase_ne_idle
    have hbusy := h.poll host s.statusWord (.engine :: .waitIdle host :: rest)
    have hmove := h.poll host s.statusWord (.waitIdle host :: rest)
    obtain ⟨t, ht, hprogress⟩ := hmove.engineStep_progress
    have hengine := (step_of_move hbusy.noFault rfl).trans ht
    have hops : s.SameOperands t := (s.sameOperands_poll _ _ _).trans (engineStep_sameOperands ht)
    have hagenda : t.agenda = .waitIdle host :: rest := engineStep_agenda ht
    have hcont' (u : State) (hu : t.Awaited rest (checksumOf b len) u) : u.RunEnds host Post :=
      hcont u (hu.of_sameOperands hops)
    have hleft := Move.isProgramAccess_waitIdle host
    refine .of_step hpoll (State.not_programDone_of_mem ha (.head _) hleft)
      (.of_step hengine (State.not_programDone_of_mem rfl (.tail _ (.head _)) hleft) ?_)
    obtain ⟨hcomp, hless⟩ | ⟨hended, hresult⟩ := hprogress
    · exact ih t.workLeft (Nat.lt_of_lt_of_eq hless hn) hcomp hagenda hcont' rfl
    · exact hended.runEnds_of_wait (hops.refusal.trans h.noFault.2) hagenda (hresult ▸ hcont')

/-- `CMD CHECKSUM` and `WAITIDLE` on the idle engine: the run goes on from a state with the checksum in RESULT. -/
theorem runEnds_of_checksum {s : State} {b : Nat → Byte} (hn : s.NoFault) (hinv : s.Inv) (hp : s.phase = .idle)
    (hbuf : s.HoldsBuffer s.bufAddr.toNat s.bufLen.toNat b)
    (ha : s.agenda = regAccess s.platform host .cmd (.write (encode (.checksum true))) :: .waitIdle host :: rest)
    (hcont : ∀ u, s.Awaited rest (checksumOf b s.bufLen.toNat) u → u.RunEnds host Post) : s.RunEnds host Post := by
  have hcmd := dispatchWord_of_idle (s := { s with agenda := .waitIdle host :: rest }) hp (decode_encode (.checksum true))
  have hstart := State.Computes.of_start (s := { s with agenda := .waitIdle host :: rest }) hn (hinv.setAgenda _) hp hbuf
  refine .of_regWrite hn ha hcmd (hstart.runEnds_of_wait (rest := rest) ?_ fun u hu => ?_)
  · rw [commandBody_checksum]; rfl
  · refine hcont u (hu.of_sameOperands ?_)
    rw [commandBody_checksum]
    exact ⟨rfl, rfl, rfl, rfl, rfl⟩

end Program

/-- What the host finds when its CRC32 program, begun in `s`, has ended in `t`. -/
def State.DeliversChecksum (s : State) (host : Nat) (addr len : Word) (b : Nat → Byte) (t : State) : Prop :=
  t.agenda = [] ∧ t.Ended ∧ t.hostAnswer = some ⟨host, checksumOf b len.toNat⟩ ∧ t.bufAddr = addr ∧ t.bufLen = len ∧
    ∀ a, t.mem.read a = s.mem.read a

/-- The last line of CRC32, `RD RESULT`, ends the run (R67, R135). -/
theorem runEnds_of_readResult {s u : State} {host : Nat} {addr len : Word} {b : Nat → Byte} {moves : List Move}
    (hn : s.NoFault)
    (hu : State.Awaited { s with bufAddr := addr, bufLen := len, agenda := moves }
      [regAccess s.platform host .result .read] (checksumOf b len.toNat) u) :
    u.RunEnds host (s.DeliversChecksum host addr len b) := by
  obtain ⟨⟨haddr, hlen, hmem, hplat, hrefusal⟩, ha, ⟨hp, hdone, hf⟩, hr⟩ := hu
  have hread := step_of_regRead ⟨hf, hrefusal.trans hn.2⟩ (r := .result) (ha.trans (by rw [hplat]))
  refine .of_step hread (State.not_programDone_of_mem ha (.head _) (isProgramAccess_regAccess _ _ _ _)) ?_
  refine .now nofun hf ⟨rfl, ⟨hp, hdone, hf⟩, ?_, haddr, hlen, fun a => ?_⟩
  · rw [State.answer_hostAnswer, State.regRead, hr]
  · exact congrArg (Cells.read · a) hmem

/-! ### The obligations -/

/-- Settles O25: the two ways a poll can go. -/
theorem waitIdlePollsUntilIdle : Obligations.WaitIdlePollsUntilIdle := by
  intro s h rest hn ha
  by_cases hp : s.phase = .idle
  · exact ⟨_, step_of_waitIdle_idle hn ha hp, rfl, absurd hp, fun _ => rfl⟩
  · exact ⟨_, step_of_waitIdle_busy hn ha hp, rfl, fun _ => rfl, fun hidle => absurd hidle hp⟩

/-- Settles O60: the two operand writes, the CHECKSUM and the wait for its end, and the read of RESULT. -/
theorem crcProgramDeliversTheChecksum : Obligations.CrcProgramDeliversTheChecksum := by
  intro s h addr len b hn ha hp hinv haddr hbuf
  show State.RunEnds h (s.DeliversChecksum h addr len b) (s.load h [.crc32 addr len])
  have hagenda : (s.load h [.crc32 addr len]).agenda = HostOp.moves s.platform h (.crc32 addr len) := by
    simp [State.load, show s.agenda = [] from ha]
  refine .of_regWrite (r := .bufAddr) hn hagenda rfl (.of_regWrite (r := .bufLen) hn rfl rfl ?_)
  simp only [State.load, truncAddr_of_lt haddr]
  exact runEnds_of_checksum hn (hinv.setOperands haddr len _) hp hbuf rfl fun u => runEnds_of_readResult hn

end Sys2Proof.Machine

/-! Proofs of the statements on the Table Builder (40_table_builder.md): the reduction functions and the slices they fill
(R69, R70, R78, R79), the build micro-step and a whole build (R73 to R75, R80), and INVALIDATE_TABLE (R77). -/

namespace Sys2Proof.Machine

/-! ### Slices of the table (R78, R79) -/

theorem reduce1_eq_of_lowBit (x : Word) :
    reduce1 x = if x &&& 1#32 ≠ 0#32 then 0xEDB88320#32 ^^^ (x >>> 1) else x >>> 1 := by
  have hbit : x &&& 1#32 = 1#32 ↔ x &&& 1#32 ≠ 0#32 := by
    rw [BitVec.and_one_eq_setWidth_ofBool_getLsbD]
    cases x.getLsbD 0 <;> decide
  exact if_congr hbit rfl rfl

theorem tableValue_zero_index (t : Nat) : tableValue t 0#8 = 0#32 := reducePow_zero_word (t + 1)

theorem byteOf_zero_eq_setWidth (x : Word) : byteOf 0 x = x.setWidth 8 :=
  (BitVec.setWidth_eq_extractLsb' (by decide)).symm

/-- Each slice is the slice before it, reduced by one more zero byte (R78). -/
theorem tableValue_succ (t : Nat) (i : Byte) :
    tableValue (t + 1) i = (tableValue t i >>> 8) ^^^ tableValue 0 ((tableValue t i).setWidth 8) := by
  calc tableValue (t + 1) i = reduce8 (tableValue t i) := rfl
    _ = tableValue 0 (byteOf 0 (tableValue t i)) ^^^ (tableValue t i >>> 8) := reduce8_eq_tableValue _
    _ = _ := by rw [BitVec.xor_comm, byteOf_zero_eq_setWidth]

/-- An XOR of entries of a slice is the entry of the XOR of their indices (R79). -/
theorem foldl_xor_tableValue (t : Nat) (l : List Nat) :
    l.foldl (fun acc i => acc ^^^ tableValue t (BitVec.ofNat 8 i)) 0#32 =
      tableValue t (l.foldl (fun acc i => acc ^^^ BitVec.ofNat 8 i) 0#8) := by
  rw [← tableValue_zero_index t]
  exact List.foldl_hom (tableValue t) fun i j => (tableValue_xor t i (BitVec.ofNat 8 j)).symm

/-! ### A build (R74, R75) -/

theorem buildStep_table (i : Byte) (c : Chain) (s : State) : (buildStep i c s).table = buildRow i s.table := by
  obtain ⟨-, hb⟩ | ⟨-, -, hb⟩ | ⟨-, -, hb⟩ := buildStep_cases i c s <;> rw [hb]

/-- The build micro-step of the last index completes the build (R75). -/
theorem buildStep_last {i : Byte} (h : ¬ i.toNat < 255) (c : Chain) (s : State) :
    buildStep i c s = buildComplete c { s with table := buildRow i s.table } := if_neg h

theorem buildRows_full (T : Table) : ∀ t < 16, ∀ i, (buildRows 256 T).entry t i = some (tableValue t i) :=
  fun _ ht i => (buildRows_entry (Nat.le_refl 256) T ht i).trans (if_pos i.isLt)

/-- With no other agent's move to come, a run in phase BUILD goes on with the build micro-step (R11, R74). -/
theorem steps_succ_of_build {n : Nat} {s t : State} {i : Byte} {c : Chain} (hs : steps n s = .next t) (hn : t.NoFault)
    (ha : t.EngineAlone) (hp : t.phase = .build i c) : steps (n + 1) s = .next (buildStep i c t) := by
  rw [steps_add 1 hs]
  exact steps_one ((step_of_engineAlone hn ha).trans (engineStep_build hp))

section BuildAlone

variable {s : State} {c : Chain} (hn : s.NoFault) (ha : s.EngineAlone) (hp : s.phase = .build 0#8 c)

include hn ha hp

/-- After `n` micro-steps of a build, the rows `0 .. n-1` are written and the next index is `n` (R74). -/
theorem steps_build {n : Nat} (h : n < 256) :
    steps n s = .next { s with phase := .build (BitVec.ofNat 8 n) c, table := buildRows n s.table } := by
  induction n with
  | zero => rw [steps_zero, ← hp]; rfl
  | succ n ih =>
    have hi : (BitVec.ofNat 8 n).toNat < 255 := by simp; omega
    rw [steps_succ_of_build (ih (by omega)) hn ha rfl, buildStep_next hi, buildRows_succ, BitVec.ofNat_add]

/-- The next micro-step is the build micro-step of index `n` (R74). -/
theorem steps_build_succ {n : Nat} (h : n < 256) :
    steps (n + 1) s = .next (buildStep (BitVec.ofNat 8 n) c
      { s with phase := .build (BitVec.ofNat 8 n) c, table := buildRows n s.table }) :=
  steps_succ_of_build (steps_build hn ha hp h) hn ha rfl

/-- The 256th micro-step of a build completes it, over a whole table (R71, R75). -/
theorem steps_build_complete : ∃ T : Table, (∀ t < 16, ∀ i, T.entry t i = some (tableValue t i)) ∧
    steps 256 s = .next (buildComplete c { s with phase := .build 255#8 c, table := T }) := by
  refine ⟨buildRows 256 s.table, buildRows_full s.table, ?_⟩
  rw [steps_build_succ hn ha hp (n := 255) (by decide), buildStep_last (by decide), buildRows_succ 255]

end BuildAlone

/-- Over the invariant, the last row of a build makes the table whole (R75). -/
theorem State.Inv.buildRow_last_full {s : State} {c : Chain} (h : s.Inv) (hp : s.phase = .build 255#8 c) :
    ∀ t < 16, ∀ i, (buildRow 255#8 s.table).entry t i = some (tableValue t i) := by
  obtain ⟨-, hT⟩ := h.tablePartial _ _ hp
  exact (Table.filledBelow_buildRow hT).full

/-! ### BUILD_TABLE (R73) -/

/-- The state in which an accepted BUILD_TABLE has started a build (R62, R73). -/
def State.buildStarted (s : State) : State := { s.accept with phase := .build 0#8 .none }

theorem exec_buildTable_of_table {s : State} (hp : s.phase = .idle) (hv : s.tableValid = true) :
    exec .buildTable s = .next s.accept.finish :=
  (exec_of_idle _ hp).trans (congrArg _ (if_pos hv))

theorem exec_buildTable_of_noTable {s : State} (hp : s.phase = .idle) (hv : s.tableValid = false) :
    exec .buildTable s = .next s.buildStarted :=
  (exec_of_idle _ hp).trans (congrArg _ (if_neg (by simp [hv])))

/-! ### The STATUS word after a command (R21) -/

/-- The STATUS word of an operation that is over without error. -/
theorem State.statusWord_of_finished {s : State} (hp : s.phase = .idle) (hd : s.done = true) (he : s.err = 0#3) :
    s.statusWord = if s.tableValid then 0x00000006#32 else 0x00000002#32 := by
  rw [State.statusWord, he, hd, s.busy_of_idle hp]
  cases s.tableValid <;> decide

/-! ### The obligations -/

/-- Settles O31: the low bit is 0 or 1, and the examples, evaluated. -/
theorem reductionSteps : Obligations.ReductionSteps :=
  ⟨reduce1_eq_of_lowBit, by decide, by decide, by decide, fun _ => rfl, by decide⟩

/-- Settles O32: the XOR of all entries is the entry of the XOR of all indices, which is 0. -/
theorem reductionIsLinear : Obligations.ReductionIsLinear := by
  refine ⟨reduce1_xor, tableValue_xor, tableValue_zero_index, fun t => ?_⟩
  have hindices : (List.range 256).foldl (fun acc i => acc ^^^ BitVec.ofNat 8 i) 0#8 = 0#8 := by decide +kernel
  rw [foldl_xor_tableValue, hindices, tableValue_zero_index]

/-- Settles O33. -/
theorem sliceRecurrence : Obligations.SliceRecurrence := by
  intro t i ht
  obtain ⟨n, rfl⟩ := Nat.exists_eq_add_of_le' ht
  exact tableValue_succ n i

/-- Settles O34: the row of the index, and the two ways the micro-step can go on. -/
theorem buildMicroStep : Obligations.BuildMicroStep := by
  refine ⟨fun s i c hp => ⟨_, engineStep_build hp, ?_, fun hi => ?_, fun hi => ?_⟩, by decide +kernel⟩ <;>
    rw [buildStep_table]
  · exact fun k hk => buildRow_entry i s.table hk
  · exact buildStep_next hi c s
  · exact buildStep_last (by omega) c s

/-- Settles O35: the last row makes the table whole, and the chain says how the build ends. -/
theorem buildCompletion : Obligations.BuildCompletion := by
  intro s c hinv hp
  refine ⟨_, engineStep_build hp, ?_, ?_, ?_⟩ <;> rw [buildStep_table]
  · exact hinv.buildRow_last_full hp
  · rintro rfl; exact buildStep_last_alone (by decide) s
  · rintro rfl; exact buildStep_last_checksum (by decide) s

/-- Settles O39: a build micro-step answers a next state, and no engine micro-step writes ERR. -/
theorem buildCannotFail : Obligations.BuildCannotFail := by
  intro s i c hp
  have hstep := engineStep_build hp
  obtain ⟨herr, -⟩ := engineStep_frame hstep
  exact ⟨_, hstep, herr⟩

/-- Settles O11: acceptance, and what the body does with and without a table. -/
theorem buildTableStartsOrFinishes : Obligations.BuildTableStartsOrFinishes := by
  refine ⟨fun s hp hv => exec_buildTable_of_table hp hv, fun s hp hv => exec_buildTable_of_noTable hp hv,
    fun s hp => exec_of_busy _ hp, ?_⟩
  exact ⟨_, exec_buildTable_of_noTable rfl rfl, by decide⟩

/-- Settles O12: acceptance, and STATUS once TABLE_VALID is 0. -/
theorem invalidateTableEmptiesTheTable : Obligations.InvalidateTableEmptiesTheTable := by
  refine ⟨fun s hp => ⟨_, exec_of_idle _ hp, fun _ _ => rfl, rfl⟩, fun s hp => exec_of_busy _ hp, fun s hp _ => ?_⟩
  exact ⟨_, exec_of_idle _ hp, State.statusWord_of_finished hp rfl rfl⟩

/-- Settles O36: the run of the build that BUILD_TABLE starts, row by row to its completion. -/
theorem buildRunFillsTheTable : Obligations.BuildRunFillsTheTable := by
  intro s hn ha hp hv
  obtain ⟨T, hT, hend⟩ := steps_build_complete (s := s.buildStarted) hn ha rfl
  refine ⟨_, _, exec_buildTable_of_noTable hp hv, hend, fun n h => ?_, hT, ?_, ⟨rfl, rfl, hn.1⟩,
    State.statusWord_of_finished rfl rfl rfl⟩
  · exact ⟨_, steps_build (s := s.buildStarted) hn ha rfl h, rfl, hv⟩
  · simp only [buildComplete, State.buildStarted, State.accept, ErrCode.code_none, show s.phase = .idle from hp]

end Sys2Proof.Machine

/-! Proofs of the statements on the Checksum Engine (41_checksum_engine.md): CHECKSUM at its acceptance (R81 to R84, R94), its
micro-steps and their faults (R85 to R89, R91), a whole run of it with and without a table (R83, R90, R92, R93, R98), and what it
leaves in RESULT (R96, R99). -/

namespace Sys2Proof.Machine

/-! ### CHECKSUM at its acceptance (R81 to R84) -/

/-- CHECKSUM with P = 1 on the idle engine, as one update (R81, R83, R84). -/
theorem exec_checksum_of_idle {s : State} (hp : s.phase = .idle) : exec (.checksum true) s = .next
    { s.accept.startCrc with phase := if s.tableValid then .crc else .build 0#8 .checksum } :=
  (exec_of_idle _ hp).trans (congrArg _ (commandBody_checksum s.accept))

theorem exec_checksum_of_table {s : State} (hp : s.phase = .idle) (hv : s.tableValid = true) :
    exec (.checksum true) s = .next { s.accept.startCrc with phase := .crc } := by
  rw [exec_checksum_of_idle hp, if_pos hv]

theorem exec_checksum_of_noTable {s : State} (hp : s.phase = .idle) (hv : s.tableValid = false) :
    exec (.checksum true) s = .next { s.accept.startCrc with phase := .build 0#8 .checksum } := by
  rw [exec_checksum_of_idle hp, if_neg (by simp [hv])]

/-! ### The micro-steps over a table of any words (R86, R87) -/

/-- What taking in `k` bytes writes, where `ptr` and `rem` hold values (R86, R87). -/
theorem State.advanceCrc_eq {s : State} {p n : Nat} (hptr : s.ptr = some p) (hrem : s.rem = some n) (crc : Word) (k : Nat) :
    s.advanceCrc crc k = { s with crc := some crc, ptr := some (p + k), rem := some (n - k) } := by
  rw [advanceCrc, ptrValue_some hptr, remValue_some hrem]

/-- A WindowStep that reads the bytes `b` takes in what the window formula makes of them (R86). -/
theorem windowStep_of_windowCrc {s : State} {b : Fin 16 → Byte} {crc : Word}
    (hb : ∀ k : Fin 16, s.memRead (s.ptrValue + k.val) = .ok (b k)) (hcrc : windowCrc s.lookup s.crcValue b = some crc) :
    windowStep s = .next (s.advanceCrc crc 16) := by
  have hread : s.readBytes s.ptrValue 16 = .ok (Vector.ofFn b) :=
    State.readBytes_eq_ok_iff.2 fun k hk => by rw [hb ⟨k, hk⟩, Vector.getElem_ofFn]
  refine windowStep_next_iff.2 ⟨_, crc, hread, ?_, rfl⟩
  simpa only [Vector.getElem_ofFn] using hcrc

/-- The byte formula where slice 0 of the table holds the words `T` (R87). -/
theorem byteCrc_of_slice {look : Nat → Byte → Option Word} {T : Byte → Word} (h : ∀ i, look 0 i = some (T i)) (crc : Word)
    (x : Byte) : byteCrc look crc x = some (T (byteOf 0 crc ^^^ x) ^^^ (crc >>> 8)) := by
  simp [byteCrc, h]

/-- The last micro-step of a CHECKSUM (R88). -/
theorem engineStep_final {s : State} (hp : s.phase = .crc) (hr : s.rem = some 0) {c : Word} (hc : s.crc = some c) :
    engineStep s = .next { s with result := c ^^^ crcXorOut, done := true, phase := .idle } := by
  rw [engineStep_crc hp, crcStep_final (State.remValue_some hr), finalStep, State.crcValue_some hc]

/-- By how much a micro-step of phase CRC lowers `rem` (R85). -/
theorem crcStep_rem {s t : State} {n : Nat} (hr : s.rem = some n) (h : crcStep s = .next t) :
    t.rem = some (if 16 ≤ n then n - 16 else if 1 ≤ n then n - 1 else 0) := by
  have hn := State.remValue_some hr
  obtain ⟨hle, hw⟩ | ⟨hle, hlt, hb⟩ | ⟨h0, rfl⟩ := crcStep_cases h
  · obtain ⟨v, c, -, -, rfl⟩ := windowStep_next_iff.1 hw
    rw [State.advanceCrc_rem, hn, if_pos (hn ▸ hle)]
  · obtain ⟨x, c, -, -, rfl⟩ := byteStep_next_iff.1 hb
    rw [State.advanceCrc_rem, hn, if_neg (Nat.not_le.2 (hn ▸ hlt)), if_pos (hn ▸ hle)]
  · obtain rfl : n = 0 := hn.symm.trans h0
    exact hr

/-! ### Faults of the micro-steps (R89) -/

theorem windowStep_of_readFault {s : State} {j : Nat} {f : Fault} (hj : j < 16)
    (hok : ∀ k < j, ∃ b, s.memRead (s.ptrValue + k) = .ok b) (hf : s.memRead (s.ptrValue + j) = .error f) :
    windowStep s = .fault f := by
  have hread : s.readBytes s.ptrValue 16 = .error f := State.readBytes_eq_error_iff.2 ⟨j, hj, hok, hf⟩
  unfold windowStep
  rw [hread]

theorem byteStep_of_readFault {s : State} {f : Fault} (hf : s.memRead s.ptrValue = .error f) : byteStep s = .fault f := by
  rw [byteStep, hf]

/-- The first address of a micro-step whose read faults gives the step's fault (R89, R109). -/
theorem crcStep_of_readFault {s : State} {j : Nat} {f : Fault}
    (hj : j < if 16 ≤ s.remValue then 16 else min s.remValue 1)
    (hok : ∀ k < j, ∃ b, s.memRead (s.ptrValue + k) = .ok b) (hf : s.memRead (s.ptrValue + j) = .error f) :
    crcStep s = .fault f := by
  by_cases hw : 16 ≤ s.remValue
  · rw [if_pos hw] at hj
    rw [crcStep_window hw]
    exact windowStep_of_readFault hj hok hf
  · rw [if_neg hw] at hj
    obtain rfl : j = 0 := by omega
    rw [crcStep_byte (by omega) (by omega)]
    exact byteStep_of_readFault hf

/-! ### A WindowStep is sixteen ByteSteps (R91) -/

/-- The last of a run of ByteSteps may be counted apart. -/
theorem byteSteps_succ {n : Nat} {s t : State} (h : byteSteps n s = .next t) : byteSteps (n + 1) s = byteStep t := by
  induction n generalizing s with
  | zero =>
    cases h
    rw [byteSteps]
    cases hs : byteStep t <;> simp [byteSteps]
  | succ n ih =>
    rw [byteSteps] at h ⊢
    cases hs : byteStep s with
    | next u => rw [hs] at h; exact ih h
    | fault f => rw [hs] at h; cases h
    | refused r => rw [hs] at h; cases h

theorem State.advanceCrc_advanceCrc (s : State) (c d : Word) (m n : Nat) :
    (s.advanceCrc c m).advanceCrc d n = s.advanceCrc d (m + n) := by
  rw [advanceCrc_eq (s.advanceCrc_ptr c m) (s.advanceCrc_rem c m), advanceCrc, advanceCrc, Nat.add_assoc, Nat.sub_sub]

section WholeTable

variable {s : State} (hT : ∀ t < 16, ∀ i, s.lookup t i = some (tableValue t i)) {x : Nat → Byte}

include hT

/-- A WindowStep over a whole table takes in its bytes as the byte-at-a-time recurrence does (R91). -/
theorem windowStep_bytewise (hx : ∀ k < 16, s.memRead (s.ptrValue + k) = .ok (x k)) :
    windowStep s = .next (s.advanceCrc (bytewiseFrom s.crcValue x 16) 16) := by
  rw [← windowFormula_eq_bytewiseFrom]
  exact windowStep_of_windowCrc (fun k => hx k.val k.isLt) (windowCrc_of_table hT _ _)

/-- ByteSteps over a whole table take in their bytes one by one (R87, R91). -/
theorem byteSteps_bytewise (n : Nat) (hx : ∀ k < n + 1, s.memRead (s.ptrValue + k) = .ok (x k)) :
    byteSteps (n + 1) s = .next (s.advanceCrc (bytewiseFrom s.crcValue x (n + 1)) (n + 1)) := by
  induction n with
  | zero => exact (byteSteps_succ rfl).trans (byteStep_of_byte hT (hx 0 Nat.one_pos))
  | succ n ih =>
    have hread : (s.advanceCrc (bytewiseFrom s.crcValue x (n + 1)) (n + 1)).memRead (s.ptrValue + (n + 1)) = .ok (x (n + 1)) :=
      hx (n + 1) (Nat.lt_succ_self _)
    rw [byteSteps_succ (ih fun k hk => hx k (Nat.lt_succ_of_lt hk))]
    refine (byteStep_of_byte ?_ hread).trans (congrArg _ (s.advanceCrc_advanceCrc _ _ _ 1))
    exact hT

end WholeTable

/-! ### Runs of a busy engine (R17, R98) -/

/-- The run from `s` reaches `t` after `n` steps, and the engine is busy until then. -/
def State.BusyUntil (n : Nat) (s t : State) : Prop :=
  steps n s = .next t ∧ ∀ m < n, ∃ v, steps m s = .next v ∧ v.busy = true

theorem State.BusyUntil.refl (s : State) : s.BusyUntil 0 s := ⟨steps_zero s, nofun⟩

theorem State.BusyUntil.of_step {s t : State} (h : step s = .next t) (hb : s.busy = true) : s.BusyUntil 1 t := by
  refine ⟨steps_one h, fun m hm => ?_⟩
  obtain rfl := Nat.lt_one_iff.1 hm
  exact ⟨s, steps_zero s, hb⟩

theorem State.BusyUntil.trans {m n : Nat} {s t u : State} (h : s.BusyUntil m t) (h' : t.BusyUntil n u) :
    s.BusyUntil (m + n) u := by
  obtain ⟨hst, hbefore⟩ := h
  obtain ⟨htu, hbefore'⟩ := h'
  refine ⟨(steps_add n hst).trans htu, fun k hk => ?_⟩
  rcases Nat.lt_or_ge k m with hkm | hkm
  · exact hbefore k hkm
  · obtain ⟨j, rfl⟩ := Nat.exists_eq_add_of_le hkm
    rw [steps_add j hst]
    exact hbefore' j (by omega)

/-- The table that a whole build leaves where `T` stood. It is irreducible, since nothing should evaluate its entries. -/
@[irreducible] def builtTable (T : Table) : Table := buildRows 256 T

theorem builtTable_entry (T : Table) : ∀ t < 16, ∀ i, (builtTable T).entry t i = some (tableValue t i) := by
  unfold builtTable
  exact buildRows_full T

/-- A build with no other agent's move to come is busy for 256 micro-steps, and completes over a whole table (R74, R75). -/
theorem State.busyUntil_build {s : State} {c : Chain} (hn : s.NoFault) (ha : s.EngineAlone)
    (hp : s.phase = .build 0#8 c) :
    s.BusyUntil 256 (buildComplete c { s with phase := .build 255#8 c, table := builtTable s.table }) := by
  refine ⟨?_, fun n h => ⟨_, steps_build hn ha hp h, rfl⟩⟩
  unfold builtTable
  rw [steps_build_succ hn ha hp (n := 255) (by decide), buildStep_last (by decide), buildRows_succ 255]

/-- The last micro-step of a CHECKSUM, as a run (R88). -/
theorem State.busyUntil_final {s : State} (hn : s.NoFault) (ha : s.EngineAlone) (hp : s.phase = .crc)
    (hr : s.rem = some 0) {c : Word} (hc : s.crc = some c) :
    s.BusyUntil 1 { s with result := c ^^^ crcXorOut, done := true, phase := .idle } :=
  .of_step ((step_of_engineAlone hn ha).trans (engineStep_final hp hr hc)) (s.busy_of_not_idle (by simp [hp]))

/-! ### The CRC phase over an admitted buffer (R85 to R90, R93) -/

/-- Phase CRC over a whole table and the admitted buffer `[a, a + len)`, whose bytes are `b`, with no other agent's move to
come. -/
structure State.SumsAlone (a len : Nat) (b : Nat → Byte) (s : State) : Prop where
  noFault : s.NoFault
  alone : s.EngineAlone
  phase_eq : s.phase = .crc
  table : ∀ t < 16, ∀ i, s.lookup t i = some (tableValue t i)
  buffer : s.HoldsBuffer a len b

/-- `s` when `k` bytes of the buffer have been taken in (R86, R87). -/
def State.takenIn (a len : Nat) (b : Nat → Byte) (k : Nat) (s : State) : State :=
  { s with ptr := some (a + k), rem := some (len - k), crc := some (bytewiseFrom crcInit b k) }

/-- `s` when the FinalStep has stored the checksum of the buffer (R88). -/
def State.summed (a len : Nat) (b : Nat → Byte) (s : State) : State :=
  { s.takenIn a len b len with result := canonicalCrc b len, done := true, phase := .idle }

theorem State.takenIn_advanceCrc (s : State) (a len : Nat) (b : Nat → Byte) (k m : Nat) :
    (s.takenIn a len b k).advanceCrc (bytewiseFrom (bytewiseFrom crcInit b k) (fun j => b (k + j)) m) m =
      s.takenIn a len b (k + m) := by
  rw [advanceCrc_eq (p := a + k) (n := len - k) rfl rfl, ← bytewiseFrom_add, Nat.add_assoc, Nat.sub_sub]
  rfl

section SumsAlone

variable {a len : Nat} {b : Nat → Byte} {s : State} (h : s.SumsAlone a len b)

include h

theorem State.SumsAlone.busy_takenIn (k : Nat) : (s.takenIn a len b k).busy = true :=
  State.busy_of_not_idle _ fun hp => by cases h.phase_eq.symm.trans hp

theorem State.SumsAlone.step_takenIn (k : Nat) : step (s.takenIn a len b k) = crcStep (s.takenIn a len b k) :=
  (step_of_engineAlone (s := s.takenIn a len b k) h.noFault h.alone).trans (engineStep_crc h.phase_eq)

theorem State.SumsAlone.memRead_takenIn (k : Nat) {j : Nat} (hj : k + j < len) :
    (s.takenIn a len b k).memRead ((s.takenIn a len b k).ptrValue + j) = .ok (b (k + j)) := by
  obtain ⟨hfits, hbytes⟩ := h.buffer
  have hread : s.memRead (a + (k + j)) = .ok (b (k + j)) := State.memRead_eq_ok_iff.2 ⟨by omega, hbytes _ hj⟩
  rw [State.ptrValue_some (s := s.takenIn a len b k) rfl, Nat.add_assoc]
  exact hread

/-- While a whole window is left, the next micro-step takes it in (R85, R86, R91). -/
theorem State.SumsAlone.step_window {k : Nat} (hk : k + 16 ≤ len) :
    step (s.takenIn a len b k) = .next (s.takenIn a len b (k + 16)) := by
  have hrem : 16 ≤ (s.takenIn a len b k).remValue := Nat.le_sub_of_add_le' hk
  have hread (j : Nat) (hj : j < 16) := h.memRead_takenIn k (show k + j < len by omega)
  rw [h.step_takenIn, crcStep_window hrem, ← s.takenIn_advanceCrc]
  exact windowStep_bytewise (s := s.takenIn a len b k) h.table hread

/-- In the tail the next micro-step takes in one byte (R85, R87). -/
theorem State.SumsAlone.step_byte {k : Nat} (hk : k < len) (htail : len < k + 16) :
    step (s.takenIn a len b k) = .next (s.takenIn a len b (k + 1)) := by
  have hrem : (s.takenIn a len b k).remValue = len - k := rfl
  rw [h.step_takenIn, crcStep_byte (by omega) (by omega), ← s.takenIn_advanceCrc]
  exact byteStep_of_byte (s := s.takenIn a len b k) h.table (h.memRead_takenIn k (j := 0) hk)

/-- All windows come first (R85). -/
theorem State.SumsAlone.busyUntil_windows {q : Nat} (hq : 16 * q ≤ len) :
    (s.takenIn a len b 0).BusyUntil q (s.takenIn a len b (16 * q)) := by
  induction q with
  | zero => exact .refl _
  | succ q ih => exact (ih (by omega)).trans (.of_step (h.step_window (k := 16 * q) (by omega)) (h.busy_takenIn _))

/-- Then the tail, byte by byte (R85). -/
theorem State.SumsAlone.busyUntil_tail {k r : Nat} (hr : k + r ≤ len) (htail : len < k + 16) :
    (s.takenIn a len b k).BusyUntil r (s.takenIn a len b (k + r)) := by
  induction r with
  | zero => exact .refl _
  | succ r ih => exact (ih (by omega)).trans (.of_step (h.step_byte (k := k + r) (by omega) (by omega)) (h.busy_takenIn _))

/-- Then the final step (R85, R88, R98). -/
theorem State.SumsAlone.busyUntil_summed :
    (s.takenIn a len b 0).BusyUntil (len / 16 + len % 16 + 1) (s.summed a len b) := by
  have hwindows := h.busyUntil_windows (q := len / 16) (by omega)
  have htail := h.busyUntil_tail (k := 16 * (len / 16)) (r := len % 16) (by omega) (by omega)
  rw [Nat.div_add_mod] at htail
  have hrem : (s.takenIn a len b len).rem = some 0 := congrArg some (Nat.sub_self len)
  exact (hwindows.trans htail).trans
    (State.busyUntil_final (s := s.takenIn a len b len) h.noFault h.alone h.phase_eq hrem rfl)

end SumsAlone

/-! ### The run that a CHECKSUM starts (R83, R84) -/

/-- The state in which an accepted CHECKSUM enters phase CRC, with the table `T` built (R83, R84). -/
def State.crcStarted (T : Table) (s : State) : State :=
  { s.accept.startCrc with table := T, tableValid := true, phase := .crc }

/-- The state in which an accepted CHECKSUM begins the build it needs (R83, R84). -/
def State.chainedBuildStarted (s : State) : State := { s.accept.startCrc with phase := .build 0#8 .checksum }

theorem exec_checksum_crcStarted {s : State} (hp : s.phase = .idle) (hv : s.tableValid = true) :
    exec (.checksum true) s = .next (s.crcStarted s.table) := by
  rw [exec_checksum_of_table hp hv, State.crcStarted, ← hv]
  rfl

/-- The build that a CHECKSUM begins leaves the state in which a CHECKSUM over the built table starts (R83). -/
theorem State.busyUntil_crcStarted {s : State} (hn : s.NoFault) (ha : s.EngineAlone) :
    s.chainedBuildStarted.BusyUntil 256 (s.crcStarted (builtTable s.table)) :=
  State.busyUntil_build (s := s.chainedBuildStarted) hn ha rfl

/-- From the start of phase CRC over a whole table, the run of an admitted buffer ends with its checksum (R90, R93, R98). -/
theorem State.busyUntil_of_crcStarted {s : State} {T : Table} {b : Nat → Byte} (hn : s.NoFault) (ha : s.EngineAlone)
    (hT : ∀ t < 16, ∀ i, T.entry t i = some (tableValue t i))
    (hbuf : s.HoldsBuffer s.bufAddr.toNat s.bufLen.toNat b) :
    (s.crcStarted T).BusyUntil (s.bufLen.toNat / 16 + s.bufLen.toNat % 16 + 1)
      ((s.crcStarted T).summed s.bufAddr.toNat s.bufLen.toNat b) :=
  State.SumsAlone.busyUntil_summed (s := s.crcStarted T) ⟨hn, ha, rfl, hT, hbuf⟩

/-- Of the empty range the run is the final step alone (R92). -/
theorem State.busyUntil_of_crcStarted_empty {s : State} (T : Table) (hn : s.NoFault) (ha : s.EngineAlone)
    (hlen : s.bufLen = 0#32) :
    (s.crcStarted T).BusyUntil 1 { s.crcStarted T with result := 0#32, done := true, phase := .idle } :=
  State.busyUntil_final (s := s.crcStarted T) hn ha rfl (congrArg (fun l : Word => some l.toNat) hlen) rfl

/-! ### What changes RESULT (R24, R99) -/

/-- The step from `s` to `t` is a FinalStep (R88). -/
def State.FinalStepTo (s t : State) : Prop := s.phase = .crc ∧ s.remValue = 0 ∧ t.phase = .idle ∧ t.done = true

theorem engineStep_result {s t : State} (h : engineStep s = .next t) : t.result = s.result ∨ s.FinalStepTo t := by
  obtain ⟨-, rfl⟩ | ⟨i, c, -, rfl⟩ | ⟨hp, hc⟩ := engineStep_cases h
  · exact .inl rfl
  · obtain ⟨-, hb⟩ | ⟨-, -, hb⟩ | ⟨-, -, hb⟩ := buildStep_cases i c s <;> exact .inl (by rw [hb])
  · obtain ⟨-, hw⟩ | ⟨-, -, hb⟩ | ⟨hr, rfl⟩ := crcStep_cases hc
    · obtain ⟨v, c, -, -, rfl⟩ := windowStep_next_iff.1 hw
      exact .inl rfl
    · obtain ⟨x, c, -, -, rfl⟩ := byteStep_next_iff.1 hb
      exact .inl rfl
    · exact .inr ⟨hp, hr, rfl, rfl⟩

/-- No command writes RESULT. -/
theorem commandBody_result (i : Instr) (s : State) : (commandBody i s).result = s.result := by
  obtain ⟨-, h⟩ | ⟨-, -, h⟩ | ⟨-, -, h⟩ | ⟨-, h⟩ | ⟨-, -, h⟩ | ⟨-, -, h⟩ | ⟨-, h⟩ := commandBody_cases i s <;> rw [h] <;> rfl

theorem dispatchWord_result {w : Word} {s t : State} (h : dispatchWord w s = .next t) : t.result = s.result := by
  obtain ⟨-, rfl⟩ | ⟨-, i, -, rfl⟩ | ⟨-, -, rfl⟩ := dispatchWord_cases h
  · rfl
  · exact commandBody_result i s.accept
  · rfl

theorem performAccess_result {a : HostAccess} {s t : State} (h : performAccess a s = .next t) : t.result = s.result := by
  obtain ⟨r, -, rfl⟩ | ⟨w, -, -, hd⟩ | ⟨w, -, rfl⟩ | ⟨w, -, rfl⟩ | ⟨w, -, rfl⟩ := performAccess_cases h
  case inr.inl => exact dispatchWord_result hd
  all_goals rfl

/-- The two moves that can change RESULT. -/
theorem perform_result {m : Move} {s t : State} (h : perform m s = .next t) :
    t.result = s.result ∨ (m = .engine ∧ s.FinalStepTo t) ∨ (m = .reset ∧ t.result = 0#32) := by
  cases m with
  | engine => exact (engineStep_result h).imp_right fun hf => .inl ⟨rfl, hf⟩
  | access a => exact .inl (performAccess_result h)
  | load host a => obtain ⟨-, ⟨b, -, rfl⟩ | ⟨-, rfl⟩⟩ := loadByte_cases h <;> exact .inl rfl
  | store a b =>
    obtain ⟨-, -, rfl⟩ := storeByte_next_iff.1 h
    exact .inl rfl
  | waitIdle host =>
    cases h
    obtain ⟨-, hp⟩ | ⟨-, hp⟩ := pollStatus_cases host s <;> exact .inl (by rw [hp]; rfl)
  | reset => cases h; exact .inr (.inr ⟨rfl, rfl⟩)

/-- The two steps that can change RESULT (R99). -/
theorem step_result {s t : State} (h : step s = .next t) :
    t.result = s.result ∨ (s.EngineMoves ∧ s.FinalStepTo t) ∨ (s.NextMove .reset ∧ t.result = 0#32) := by
  obtain ⟨-, -, ⟨ha, he⟩ | ⟨m, rest, ha, hm⟩⟩ := step_cases h
  · exact (engineStep_result he).imp_right fun hf => .inl ⟨.inl ha, hf⟩
  · obtain hsame | ⟨rfl, hf⟩ | ⟨rfl, h0⟩ := perform_result hm
    · exact .inl hsame
    · exact .inr (.inl ⟨.inr ⟨rest, ha⟩, hf⟩)
    · exact .inr (.inr ⟨⟨rest, ha⟩, h0⟩)

theorem State.Inv.rem_eq_zero {s : State} (h : s.Inv) (hp : s.phase = .crc) (hr : s.remValue = 0) : s.rem = some 0 := by
  obtain ⟨-, -, -, n, -, -, -, -, hrem, -⟩ := h.latched (.inl hp)
  rw [hrem, ← hr, State.remValue_some hrem]

/-! ### Memory ends at `2^ADDR_W` (R43) -/

theorem Cells.lt_of_read {α : Type} {c : Cells α} {n a : Nat} {x : α} (h : Cells.below n c = true)
    (hr : Cells.read c a = some x) : a < n := by
  induction c with
  | nil => cases hr
  | cons e rest ih =>
    obtain ⟨k, v⟩ := e
    simp only [Cells.below, List.all_cons, Bool.and_eq_true, decide_eq_true_eq] at h
    obtain ⟨hk, hrest⟩ := h
    by_cases hak : a = k
    · exact hak ▸ hk
    · exact ih hrest (by simpa [Cells.read, hak] using hr)

theorem State.Inv.lt_memSize_of_read {s : State} (h : s.Inv) {a : Nat} {b : Byte} (hr : s.mem.read a = some b) :
    a < s.memSize := by
  obtain ⟨-, hbelow⟩ := Bool.and_eq_true_iff.1 h.memWf
  exact Cells.lt_of_read hbelow hr

/-- With no byte left to read, what the accumulator has taken in is the whole latched range (R30, R31, R90). -/
theorem State.Inv.range_taken_in {s : State} (h : s.Inv) (ht : s.CrcTracksMemory) (hp : s.phase = .crc)
    (hr : s.rem = some 0) : ∃ a len b, s.addr0 = some a ∧ s.len0 = some len ∧ s.HoldsBuffer a len b ∧
      s.crc = some (bytewiseFrom crcInit b len) := by
  obtain ⟨a, n, b, haddr, hptr, hmem, hcrc⟩ := ht (.inl hp)
  obtain ⟨a', len, p, r, -, haddr', hlen, hptr', hrem, -, -, hsum, hlt, -⟩ := h.latched (.inl hp)
  obtain rfl := Option.some.inj (haddr.symm.trans haddr')
  obtain rfl := Option.some.inj (hptr.symm.trans hptr')
  obtain rfl := Option.some.inj (hr.symm.trans hrem)
  obtain rfl : n = len := by omega
  refine ⟨a, n, b, haddr, hlen, ⟨?_, hmem⟩, hcrc⟩
  cases n with
  | zero => exact Nat.le_of_lt hlt
  | succ n => exact h.lt_memSize_of_read (hmem n (Nat.lt_succ_self n))

/-! ### The obligations -/

/-- Settles O13: acceptance clears STATUS and the body reports the error; the host's two writes of R82's example, run. -/
theorem absentBufferIsReported : Obligations.AbsentBufferIsReported :=
  ⟨fun _ hp => exec_of_idle _ hp, _, rfl, by decide, rfl⟩

/-- Settles O14: acceptance and the latching, and the drop while busy. -/
theorem checksumStarts : Obligations.ChecksumStarts :=
  fun _ => ⟨fun hp => exec_checksum_of_idle hp, fun hp p => exec_of_busy (.checksum p) hp⟩

/-- Settles O15: what acceptance latches, and that the engine takes in neither register. -/
theorem operandsAreLatchedAtAcceptance : Obligations.OperandsAreLatchedAtAcceptance := by
  refine ⟨fun s hp => ⟨_, exec_checksum_of_idle hp, rfl, rfl, rfl, rfl, rfl⟩, fun s x y => ⟨fun t ht => ?_, fun f hf => ?_⟩⟩
  · rw [engineStep_withOperands, ht, ← engineStep_mem ht]
    rfl
  · rw [engineStep_withOperands, hf]
    rfl

/-- Settles O40: the three ranges of `rem`. -/
theorem sequencerChoosesByRem : Obligations.SequencerChoosesByRem := by
  intro s n hp hr
  have hn := State.remValue_some hr
  rw [engineStep_crc hp]
  exact ⟨fun h => crcStep_window (hn ▸ h), fun h h' => crcStep_byte (hn ▸ h') (hn ▸ h), fun h => crcStep_final (hn.trans h),
    fun t ht => crcStep_rem hr ht⟩

/-- Settles O41: the sixteen reads and the window formula; the example's partial values, evaluated. -/
theorem windowMicroStep : Obligations.WindowMicroStep := by
  refine ⟨fun s c p n b T hp hc hptr hr hn hv hT hfits hb => ?_, by decide +kernel⟩
  have hread (k : Fin 16) : s.memRead (s.ptrValue + k.val) = .ok (b k) := by
    rw [State.ptrValue_some hptr]
    exact State.memRead_eq_ok_iff.2 ⟨by omega, hb k⟩
  have hlook : ∀ t < 16, ∀ i, s.lookup t i = some (T t i) := State.lookup_of_valid hv ▸ hT
  rw [engineStep_crc hp, crcStep_window (State.remValue_some hr ▸ hn),
    windowStep_of_windowCrc hread (windowCrc_of_entries hlook _ _), State.advanceCrc_eq hptr hr, State.crcValue_some hc]
  rfl

/-- Settles O42: the one read and the byte formula; the corner cases and the example, evaluated. -/
theorem byteMicroStep : Obligations.ByteMicroStep := by
  refine ⟨fun s c p n x T hp hc hptr hr hlow hhigh hv hT hfits hx => ?_, by decide +kernel⟩
  have hn := State.remValue_some hr
  have hread : s.memRead s.ptrValue = .ok x := State.ptrValue_some hptr ▸ State.memRead_eq_ok_iff.2 ⟨hfits, hx⟩
  have hlook : ∀ i, s.lookup 0 i = some (T i) := State.lookup_of_valid hv ▸ hT
  have hstep := byteStep_next_iff.2 ⟨x, _, hread, byteCrc_of_slice hlook _ _, rfl⟩
  rw [engineStep_crc hp, crcStep_byte (by omega) (by omega), hstep, State.advanceCrc_eq hptr hr, State.crcValue_some hc]
  rfl

/-- Settles O43. -/
theorem finalMicroStep : Obligations.FinalMicroStep :=
  ⟨fun _ _ hp hr hc => engineStep_final hp hr hc, fun _ hp hr hc => ⟨_, engineStep_final hp hr hc, rfl⟩⟩

/-- Settles O44: the first read that faults gives the fault, and what is still to be read lies in the latched range. -/
theorem readFaultsComeInAddressOrder : Obligations.ReadFaultsComeInAddressOrder := by
  intro s p n j hn ha hp hptr hr hj hbefore
  have hrem := State.remValue_some hr
  have hpv := State.ptrValue_some hptr
  have hok (k : Nat) (hk : k < j) : ∃ b, s.memRead (s.ptrValue + k) = .ok b := by
    obtain ⟨hlt, hne⟩ := hbefore k hk
    obtain ⟨b, hb⟩ := Option.ne_none_iff_exists'.1 hne
    exact ⟨b, State.memRead_eq_ok_iff.2 (hpv ▸ ⟨hlt, hb⟩)⟩
  have hfault (f : Fault) (hf : s.memRead (p + j) = .error f) : step s = .fault f ∧ s.record = { s with fault := some f } := by
    have hstep : step s = .fault f := by
      rw [step_of_engineAlone hn ha, engineStep_crc hp]
      exact crcStep_of_readFault (hrem ▸ hj) hok (hpv ▸ hf)
    exact ⟨hstep, State.record_of_fault hstep⟩
  refine ⟨fun h => hfault _ (State.memRead_eq_error_iff.2 (.inl ⟨h, rfl⟩)),
    fun h hb => hfault _ (State.memRead_eq_error_iff.2 (.inr ⟨h, hb, rfl⟩)), fun hinv => ?_⟩
  obtain ⟨a, len, -, -, -, haddr, hlen, -⟩ := hinv.latched (.inl hp)
  have hjrem : j < s.remValue := by split at hj <;> omega
  obtain ⟨i, hi, hji⟩ := hinv.remaining_in_range hp haddr hlen hjrem
  exact ⟨a, len, haddr, hlen, by omega, by omega⟩

/-- Settles O46: both take the window's bytes in as the recurrence does, and so do the formulas. -/
theorem sliceBySixteenIsBytewise : Obligations.SliceBySixteenIsBytewise := by
  refine ⟨fun s p n hv hT hptr _ _ hfits hb => ?_, windowFormula_eq_bytewiseFrom, checksumOf_eq_canonicalCrc⟩
  have hlook : ∀ t < 16, ∀ i, s.lookup t i = some (tableValue t i) := State.lookup_of_valid hv ▸ hT
  have hread (k : Nat) (hk : k < 16) : s.memRead (s.ptrValue + k) = .ok (s.mem.byteAt (s.ptrValue + k)) := by
    rw [State.ptrValue_some hptr]
    obtain ⟨b, hb⟩ := Option.ne_none_iff_exists'.1 (hb k hk)
    exact State.memRead_eq_ok_iff.2 ⟨by omega, Memory.read_byteAt hb⟩
  exact ⟨_, windowStep_bytewise hlook hread, byteSteps_bytewise hlook 15 hread⟩

/-- Settles O47: the windows, the tail and the final step over the table that stands. -/
theorem checksumRunComputesTheFunction : Obligations.ChecksumRunComputesTheFunction := by
  intro s b hn ha hp hinv hv hbuf
  obtain ⟨hrun, hbusy⟩ := State.busyUntil_of_crcStarted hn ha (hinv.tableFull hv) hbuf
  refine ⟨_, exec_checksum_crcStarted hp hv, hrun.trans (congrArg _ ?_), hbusy⟩
  have hcrc : bytewiseFrom crcInit b s.bufLen.toNat = canonicalCrc b s.bufLen.toNat ^^^ crcXorOut := by
    rw [canonicalCrc, BitVec.xor_assoc, BitVec.xor_self, BitVec.xor_zero]
  rw [checksumOf_eq_canonicalCrc, State.summed, State.takenIn, hcrc, Nat.sub_self, State.crcStarted, ← hv,
    ← show s.phase = .idle from hp]
  rfl

/-- Settles O48: the build, and then the run over the table it leaves. -/
theorem firstUseChecksumRun : Obligations.FirstUseChecksumRun := by
  intro s b hn ha hp hv hbuf
  have hT := builtTable_entry s.table
  obtain ⟨hrun, hbusy⟩ := (State.busyUntil_crcStarted hn ha).trans (State.busyUntil_of_crcStarted hn ha hT hbuf)
  rw [Nat.add_assoc, Nat.add_assoc, ← Nat.add_assoc _ _ 1]
  refine ⟨_, _, exec_checksum_of_noTable hp hv, hrun, ⟨rfl, rfl, hn.1⟩, hbusy, ?_, rfl, rfl, hT, rfl, rfl, fun _ => rfl⟩
  exact (checksumOf_eq_canonicalCrc b _).symm

/-- Settles O49: both ways come to phase CRC with the same table built. -/
theorem firstUseIsBuildThenChecksum : Obligations.FirstUseIsBuildThenChecksum := by
  intro s hn ha hp hv
  obtain ⟨hbuild, -⟩ := State.busyUntil_build (s := s.buildStarted) hn ha rfl
  obtain ⟨hchain, -⟩ := State.busyUntil_crcStarted hn ha
  exact ⟨_, _, _, _, exec_buildTable_of_noTable hp hv, hbuild, exec_checksum_crcStarted rfl rfl,
    exec_checksum_of_noTable hp hv, hchain⟩

/-- Settles O50: the final step alone, after the build where there is no table. -/
theorem emptyBufferChecksum : Obligations.EmptyBufferChecksum := by
  intro s hn ha hp hlen
  cases hv : s.tableValid with
  | true =>
    obtain ⟨hrun, hbusy⟩ := State.busyUntil_of_crcStarted_empty s.table hn ha hlen
    exact ⟨_, _, exec_checksum_crcStarted hp hv, hrun, ⟨rfl, rfl, hn.1⟩, rfl, rfl, hbusy, nofun⟩
  | false =>
    have hfinal := State.busyUntil_of_crcStarted_empty (builtTable s.table) hn ha hlen
    obtain ⟨hrun, hbusy⟩ := (State.busyUntil_crcStarted hn ha).trans hfinal
    exact ⟨_, _, exec_checksum_of_noTable hp hv, hrun, ⟨rfl, rfl, hn.1⟩, rfl, rfl, hbusy, fun _ => builtTable_entry s.table⟩

/-- Settles O51: the first of the ways of `step_result` is no change, the others are those of the statement. -/
theorem resultChangesOnlyAtTheFinalStep : Obligations.ResultChangesOnlyAtTheFinalStep := by
  intro s t h hne
  obtain ⟨hm, hp, hr, hidle, hdone⟩ | hreset := (step_result h).resolve_left hne
  · exact .inl ⟨hm, hp, fun hinv => hinv.rem_eq_zero hp hr, hidle, hdone⟩
  · exact .inr hreset

/-- Settles O59: the accumulator has taken in the whole latched range, and the final step stores it. -/
theorem finalStepStoresTheRangeChecksum : Obligations.FinalStepStoresTheRangeChecksum := by
  intro s hinv htracks hp hr
  obtain ⟨a, len, b, haddr, hlen, hbuf, hcrc⟩ := hinv.range_taken_in htracks hp hr
  exact ⟨a, len, b, _, haddr, hlen, hbuf, engineStep_final hp hr hcrc, rfl, rfl, rfl, fun hf => ⟨rfl, rfl, hf⟩⟩

end Sys2Proof.Machine

/-! Proofs of the statements on control (42_control.md): NOP (R100), the frame of the four commands (R73, R77, R81, R82, R110),
and how long an ERR code lasts (R101). -/

namespace Sys2Proof

/-! ### The words with OP = 0 (R57 to R60, R100) -/

theorem Instr.eq_nop_of_op_zero {i : Instr} (h : i.fields.op = 0#8) : i = .nop := by
  cases i with
  | nop => rfl
  | buildTable | checksum | invalidateTable => exact absurd h (by simp [Instr.fields])

/-- NOP is the one legal word with OP = 0, and its P and RSV fields are 0 (R58, R59). -/
theorem decode_ne_ok_of_op_zero {w : Word} (hop : w.extractLsb' 0 8 = 0#8)
    (hset : w.getLsbD 8 = true ∨ w.extractLsb' 9 23 ≠ 0#23) (i : Instr) : decode w ≠ .ok i := by
  intro h
  obtain rfl := decode_eq_ok_iff.1 h
  obtain rfl := Instr.eq_nop_of_op_zero ((congrArg CommandFields.op (fieldsOf_encode i)).symm.trans hop)
  exact absurd hset (by decide)

end Sys2Proof

namespace Sys2Proof.Machine

/-! ### What a command leaves unchanged (R73, R77, R81, R82, R100, R110) -/

/-- All that a command can do (R62). -/
theorem exec_cases {i : Instr} {s t : State} (h : exec i s = .next t) :
    (s.phase ≠ .idle ∧ t = s.setErr .busyReject) ∨ (s.phase = .idle ∧ t = commandBody i s.accept) := by
  by_cases hp : s.phase = .idle
  · rw [exec_of_idle i hp] at h
    exact .inr ⟨hp, (Host.Outcome.next.inj h).symm⟩
  · rw [exec_of_busy i hp] at h
    exact .inl ⟨hp, (Host.Outcome.next.inj h).symm⟩

/-- What no accepted command writes, beside RESULT and memory. -/
theorem commandBody_frame (i : Instr) (s : State) :
    (commandBody i s).bufAddr = s.bufAddr ∧ (commandBody i s).bufLen = s.bufLen ∧
      (commandBody i s).fault = s.fault ∧ (commandBody i s).refusal = s.refusal ∧
      (commandBody i s).platform = s.platform ∧ (commandBody i s).agenda = s.agenda ∧
      (commandBody i s).hostAnswer = s.hostAnswer ∧ (commandBody i s).hostLoads = s.hostLoads := by
  obtain ⟨-, h⟩ | ⟨-, -, h⟩ | ⟨-, -, h⟩ | ⟨-, h⟩ | ⟨-, -, h⟩ | ⟨-, -, h⟩ | ⟨-, h⟩ := commandBody_cases i s <;> simp [h]

/-- INVALIDATE_TABLE is the one command that changes the table. -/
theorem commandBody_sameTable {i : Instr} (hi : i ≠ .invalidateTable) (s : State) : s.SameTable (commandBody i s) :=
  (commandBody_table i s).resolve_right fun ⟨h, _⟩ => hi h

/-- CHECKSUM with P = 1 is the one command that latches operands (R84). -/
theorem commandBody_engineRegisters {i : Instr} (hi : i ≠ .checksum true) (s : State) :
    (commandBody i s).crc = s.crc ∧ (commandBody i s).ptr = s.ptr ∧ (commandBody i s).addr0 = s.addr0 ∧
      (commandBody i s).len0 = s.len0 ∧ (commandBody i s).rem = s.rem := by
  obtain ⟨-, h⟩ | ⟨-, -, h⟩ | ⟨-, -, h⟩ | ⟨-, h⟩ | ⟨hc, -⟩ | ⟨hc, -⟩ | ⟨-, h⟩ := commandBody_cases i s
  case inr.inr.inr.inr.inl | inr.inr.inr.inr.inr.inl => exact absurd hc hi
  all_goals simp [h]

/-- The commands that start no operation keep the phase. -/
theorem commandBody_phase {i : Instr} (hi : i = .nop ∨ i = .invalidateTable ∨ i = .checksum false) (s : State) :
    (commandBody i s).phase = s.phase := by
  obtain rfl | rfl | rfl := hi <;> rfl

/-- CHECKSUM with P = 0 is the one command whose body writes ERR (R82). -/
theorem commandBody_err {i : Instr} (hi : i ≠ .checksum false) (s : State) : (commandBody i s).err = s.err := by
  obtain ⟨-, h⟩ | ⟨-, -, h⟩ | ⟨-, -, h⟩ | ⟨hc, -⟩ | ⟨-, -, h⟩ | ⟨-, -, h⟩ | ⟨-, h⟩ := commandBody_cases i s
  case inr.inr.inr.inl => exact absurd hc hi
  all_goals simp [h]

/-! ### The obligations -/

/-- Settles O10: acceptance and the body of NOP; in the example TABLE_VALID is read from STATUS. -/
theorem nopOnlyClearsStatus : Obligations.NopOnlyClearsStatus := by
  refine ⟨fun s hp => exec_of_idle _ hp, fun s hp => exec_of_busy _ hp, fun w => decode_eq_ok_iff,
    fun w s hp hop hset => dispatchWord_of_illegal hp (decode_ne_ok_of_op_zero hop hset), fun s hp hw => ?_⟩
  have hvalid : s.tableValid = true := by
    rw [← s.statusWord_tableValid, hw]
    rfl
  have hstatus := State.statusWord_of_finished (s := s.accept.finish) hp rfl rfl
  exact ⟨_, exec_of_idle _ hp, hstatus.trans (if_pos hvalid)⟩

/-- Settles O16: a dropped command writes ERR alone; an accepted one writes STATUS and what its body writes. -/
theorem commandsKeepTheRest : Obligations.CommandsKeepTheRest := by
  intro i s t h
  obtain ⟨-, rfl⟩ | ⟨hp, rfl⟩ := exec_cases h
  · simp [State.setErr]
  · obtain ⟨haddr, hlen, hfault, hrefusal, hplat, hagenda, hanswer, hloads⟩ := commandBody_frame i s.accept
    refine ⟨haddr, hlen, commandBody_result i s.accept, hfault, hrefusal, hplat, hagenda, hanswer, hloads,
      fun a => congrArg (·.read a) (commandBody_mem i s.accept), fun hi => ?_,
      fun hi => commandBody_engineRegisters hi s.accept, fun hi => commandBody_phase hi s.accept, fun hb => absurd hp hb⟩
    obtain ⟨htable, hvalid⟩ := commandBody_sameTable hi s.accept
    exact ⟨hvalid, fun k j => congrArg (·.entry k j) htable⟩

/-- Settles O52: acceptance clears ERR, and the frames of the bodies and of the engine's micro-steps keep it. -/
theorem errIsClearedByTheNextCommand : Obligations.ErrIsClearedByTheNextCommand := by
  refine ⟨fun i s hp hi => ⟨_, exec_of_idle i hp, commandBody_err hi s.accept⟩,
    fun s hp hv => (exec_buildTable_of_table hp hv).trans (exec_of_idle .nop hp).symm, fun s t h => ?_,
    fun s t w hp h => ?_⟩
  · obtain ⟨herr, -⟩ := engineStep_frame h
    exact herr
  · rw [dispatchWord_of_busy w hp] at h
    cases h
    exact ⟨rfl, rfl⟩

end Sys2Proof.Machine

/-! Proofs of the statements on exceptions (60_exceptions.md): the one condition that a CMD write reports (R109), that the
block tells no host from another (R116), and that the idle engine rests (R118). -/

namespace Sys2Proof.Machine

/-- Settles O53: the idle engine's micro-step is the identity, and with no other agent's move to come it is the step. -/
theorem idleEngineRests : Obligations.IdleEngineRests :=
  fun _ hp => ⟨engineStep_idle hp, fun hn ha => (step_of_engineAlone hn ha).trans (engineStep_idle hp)⟩

/-- Settles O24: which register an access selects does not depend on its host, and neither does a register write; a read
writes the recorded answer alone. -/
theorem hostsAreAlike : Obligations.HostsAreAlike := by
  intro a h s t ht
  obtain ⟨r, hsel, ⟨hk, rfl⟩ | ⟨w, hk, hw⟩⟩ := performAccess_selects ht
  · refine ⟨_, performAccess_of_read (a := { a with host := h }) hsel hk, rfl, fun w hkw => ?_⟩
    cases hk.symm.trans hkw
  · exact ⟨t, (performAccess_of_write (a := { a with host := h }) hsel hk).trans hw, rfl, fun _ _ => rfl⟩

/-- Settles O9: the four ways a CMD write ends (R62, R63, R82), each with the ERR code that it leaves. -/
theorem oneConditionIsReported : Obligations.OneConditionIsReported := by
  intro w s
  obtain ⟨t, ht⟩ := dispatchWord_next w s
  refine ⟨t, ht, fun hp => ?_, fun hp hillegal => ?_, fun hp habsent => ?_, fun hp i hd hi => ?_⟩
  · cases ht.symm.trans (dispatchWord_of_busy w hp)
    rfl
  · cases ht.symm.trans (dispatchWord_of_illegal hp hillegal)
    rfl
  · cases ht.symm.trans (dispatchWord_of_idle hp habsent)
    exact ⟨rfl, hp, rfl⟩
  · cases ht.symm.trans (dispatchWord_of_idle hp hd)
    exact commandBody_err hi s.accept

end Sys2Proof.Machine

/-! Proofs of the statements on reset and hazards (70_reset_and_hazards.md): the values of reset (R121, R122), and what the
launch premises `buffer_stable` and `hosts_serialised` exclude (R134). -/

namespace Sys2Proof.Machine

/-! ### Reset (R120 to R122) -/

/-- A second reset finds nothing to change (R121). -/
theorem State.resetBlock_inReset (s : State) : s.resetBlock.InReset := rfl

/-- STATUS after reset (R121). -/
theorem State.resetBlock_statusWord (s : State) : s.resetBlock.statusWord = 0x00000000#32 := by
  simp [State.statusWord, s.resetBlock.busy_of_idle rfl]

theorem State.reset_inv : State.reset.Inv :=
  State.Sound.inv_of_idle
    { errLegal := Nat.zero_le 3
      platformWf := rfl
      bufAddrFits := State.reset.memSize_pos
      memWf := Memory.wf_reset
      tableWf := rfl
      tableFull := nofun }
    rfl fun _ => rfl

/-! ### What is kept along a run (R12) -/

/-- What holds at the start of a run and is kept by every step holds wherever the run gets. -/
theorem steps_keep {P : State → Prop} (hstep : ∀ s t, P s → step s = .next t → P t) {n : Nat} {s t : State} (h : P s)
    (hst : steps n s = .next t) : P t := by
  induction n generalizing s with
  | zero => cases hst; exact h
  | succ n ih =>
    simp only [steps] at hst
    cases hs : step s with
    | next u => rw [hs] at hst; exact ih (hstep s u h hs) hst
    | fault f => rw [hs] at hst; cases hst
    | refused r => rw [hs] at hst; cases hst

/-- A run that faults gets to a state whose step faults (R12). -/
theorem steps_fault {n : Nat} {s : State} {f : Fault} (h : steps n s = .fault f) :
    ∃ m t, steps m s = .next t ∧ step t = .fault f := by
  induction n generalizing s with
  | zero => cases h
  | succ n ih =>
    simp only [steps] at h
    cases hs : step s with
    | next u =>
      rw [hs] at h
      obtain ⟨m, t, hm, ht⟩ := ih h
      exact ⟨1 + m, t, (steps_add m (steps_one hs)).trans hm, ht⟩
    | fault g => rw [hs] at h; exact ⟨0, s, steps_zero s, hs.trans h⟩
    | refused r => rw [hs] at h; cases h

/-! ### No move records a fault or a refusal: a stop is the step's outcome (R12, R119) -/

theorem State.NoFault.of_fields {s t : State} (h : s.NoFault) (hf : t.fault = s.fault) (hr : t.refusal = s.refusal) :
    t.NoFault := ⟨hf.trans h.1, hr.trans h.2⟩

theorem engineStep_noFault {s t : State} (h : s.NoFault) (ht : engineStep s = .next t) : t.NoFault := by
  obtain ⟨-, -, -, -, -, hf, hr, -⟩ := engineStep_frame ht
  exact h.of_fields hf hr

theorem dispatchWord_noFault {w : Word} {s t : State} (h : s.NoFault) (ht : dispatchWord w s = .next t) : t.NoFault := by
  obtain ⟨-, rfl⟩ | ⟨-, i, -, rfl⟩ | ⟨-, -, rfl⟩ := dispatchWord_cases ht
  · exact h
  · obtain ⟨-, -, hf, hr, -⟩ := commandBody_frame i s.accept
    exact h.of_fields hf hr
  · exact h

theorem performAccess_noFault {a : HostAccess} {s t : State} (h : s.NoFault) (ht : performAccess a s = .next t) :
    t.NoFault := by
  obtain ⟨r, -, rfl⟩ | ⟨w, -, -, hd⟩ | ⟨w, -, rfl⟩ | ⟨w, -, rfl⟩ | ⟨w, -, rfl⟩ := performAccess_cases ht
  case inr.inl => exact dispatchWord_noFault h hd
  all_goals exact h

theorem perform_noFault {m : Move} {s t : State} (h : s.NoFault) (ht : perform m s = .next t) : t.NoFault := by
  cases m with
  | engine => exact engineStep_noFault h ht
  | access a => exact performAccess_noFault h ht
  | load host a => obtain ⟨-, ⟨b, -, rfl⟩ | ⟨-, rfl⟩⟩ := loadByte_cases ht <;> exact h
  | store a b =>
    obtain ⟨-, -, rfl⟩ := storeByte_next_iff.1 ht
    exact h
  | waitIdle host =>
    cases ht
    obtain ⟨-, hp⟩ | ⟨-, hp⟩ := pollStatus_cases host s <;> rw [hp] <;> exact h
  | reset => cases ht; exact h

theorem step_noFault {s t : State} (h : s.NoFault) (ht : step s = .next t) : t.NoFault := by
  obtain ⟨-, -, ⟨-, he⟩ | ⟨m, rest, -, hm⟩⟩ := step_cases ht
  · exact engineStep_noFault h he
  · exact perform_noFault (s := { s with agenda := rest }) h hm

/-! ### Where HAZARD_BUFFER_WRITE comes from (R54, R104) -/

theorem State.memRead_ne_hazard (s : State) (a x : Nat) : s.memRead a ≠ .error (.hazardBufferWrite x) := by
  intro h
  obtain ⟨-, hf⟩ | ⟨-, -, hf⟩ := State.memRead_eq_error_iff.1 h <;> cases hf

theorem windowStep_ne_hazard (s : State) (x : Nat) : windowStep s ≠ .fault (.hazardBufferWrite x) := by
  intro h
  unfold windowStep at h
  cases hr : s.readBytes s.ptrValue 16 with
  | error f =>
    obtain ⟨j, -, -, hj⟩ := State.readBytes_eq_error_iff.1 hr
    simp only [hr, Host.Outcome.fault.injEq] at h
    exact s.memRead_ne_hazard _ x (h ▸ hj)
  | ok v =>
    simp only [hr] at h
    split at h <;> cases h

theorem byteStep_ne_hazard (s : State) (x : Nat) : byteStep s ≠ .fault (.hazardBufferWrite x) := by
  intro h
  unfold byteStep at h
  cases hr : s.memRead s.ptrValue with
  | error f =>
    simp only [hr, Host.Outcome.fault.injEq] at h
    exact s.memRead_ne_hazard _ x (h ▸ hr)
  | ok b =>
    simp only [hr] at h
    split at h <;> cases h

/-- The engine only reads memory, so none of its micro-steps is a hazard (R3, R54). -/
theorem engineStep_ne_hazard (s : State) (x : Nat) : engineStep s ≠ .fault (.hazardBufferWrite x) := by
  cases hp : s.phase with
  | idle => rw [engineStep_idle hp]; nofun
  | build i c => rw [engineStep_build hp]; nofun
  | crc =>
    rw [engineStep_crc hp, crcStep]
    split
    · exact windowStep_ne_hazard s x
    · split
      · exact byteStep_ne_hazard s x
      · nofun

/-- An access to the register block is served or refused, and never faults (R41, R109). -/
theorem performAccess_ne_fault (a : HostAccess) (s : State) (f : Fault) : performAccess a s ≠ .fault f := by
  unfold performAccess
  split
  · nofun
  · rename_i r _
    split
    · nofun
    · rename_i w _
      obtain ⟨t, ht⟩ := regWrite_next r w s
      rw [ht]
      nofun
    · nofun

theorem loadByte_ne_fault (host a : Nat) (s : State) (f : Fault) : loadByte host a s ≠ .fault f := by
  unfold loadByte
  split
  · nofun
  · split <;> nofun

/-- The one fault of a store by another agent (R54). -/
theorem storeByte_fault_iff {a : Nat} {b : Byte} {s : State} {f : Fault} :
    storeByte a b s = .fault f ↔ a < s.memSize ∧ s.inLatchedRange a = true ∧ f = .hazardBufferWrite a := by
  unfold storeByte
  by_cases hm : s.memSize ≤ a
  · simp [hm]
  · have hlt : a < s.memSize := Nat.not_le.1 hm
    cases hl : s.inLatchedRange a <;> simp [hm, hlt, eq_comm]

/-- The one move that is a hazard is a store into the latched range (R54). -/
theorem perform_hazard {m : Move} {s : State} {x : Nat} (h : perform m s = .fault (.hazardBufferWrite x)) :
    (∃ b, m = .store x b) ∧ s.inLatchedRange x = true := by
  cases m with
  | engine => exact absurd h (engineStep_ne_hazard s x)
  | access a => exact absurd h (performAccess_ne_fault a s _)
  | load host a => exact absurd h (loadByte_ne_fault host a s _)
  | store a b =>
    obtain ⟨-, hin, hf⟩ := storeByte_fault_iff.1 h
    obtain rfl : x = a := Fault.hazardBufferWrite.inj hf
    exact ⟨⟨b, rfl⟩, hin⟩
  | waitIdle host => cases h
  | reset => cases h

/-- Where no fault is recorded, a hazard is the store that stands next, into the range of a running CHECKSUM (R54). -/
theorem step_hazard {s : State} {x : Nat} (hn : s.NoFault) (h : step s = .fault (.hazardBufferWrite x)) :
    (∃ b, s.NextMove (.store x b)) ∧ s.ChecksumRunning ∧ s.addr0Value ≤ x ∧ x < s.addr0Value + s.len0Value := by
  cases ha : s.agenda with
  | nil =>
    rw [step_of_engineAlone hn ha] at h
    exact absurd h (engineStep_ne_hazard s x)
  | cons m rest =>
    rw [step_of_move hn ha] at h
    obtain ⟨⟨b, rfl⟩, hin⟩ := perform_hazard h
    exact ⟨⟨b, rest, ha⟩, (s.inLatchedRange_eq_true_iff x).1 hin⟩

/-! ### The launch premises (R134) -/

/-- While a stable range is the latched one, no step of the run is a hazard (R54, R134). -/
theorem State.BufferStable.step_ne_hazard {s t : State} {a n k : Nat} (h : s.BufferStable a n) (hn : s.NoFault)
    (hst : steps k s = .next t) (ha : t.addr0 = some a) (hl : t.len0 = some n) (x : Nat) :
    step t ≠ .fault (.hazardBufferWrite x) := by
  intro hx
  have hnt : t.NoFault := steps_keep (fun _ _ => step_noFault) hn hst
  obtain ⟨⟨b, hnext⟩, hrun, hrange⟩ := step_hazard hnt hx
  rw [State.addr0Value_some ha, State.len0Value_some hl] at hrange
  exact h k t x b hst hrun ha hl hnext hrange

/-- In the stretch that a CMD write begins, an access by another host is a read (R97, R134). -/
theorem State.HostsSerialised.step_of_otherHost {s t u v : State} {i m : Nat} {c a : HostAccess} {w : Word}
    (h : s.HostsSerialised) (ht : steps i s = .next t) (hc : t.HostWrites c .cmd w) (hu : steps m t = .next u)
    (hseen : t.NotSeenIdle m) (hnext : u.NextMove (.access a)) (hne : a.host ≠ c.host) (hv : step u = .next v) :
    ∃ rest word, v = State.answer a.host word { u with agenda := rest } := by
  obtain ⟨rest, ha⟩ := hnext
  obtain ⟨hf, hr, -⟩ := step_cases hv
  rw [step_of_move ⟨hf, hr⟩ ha] at hv
  obtain ⟨r, hsel, ⟨-, hread⟩ | ⟨word, hkind, -⟩⟩ := performAccess_selects hv
  · exact ⟨rest, _, hread⟩
  · exact absurd (h i t c w m u a r word ht hc hu hseen ⟨⟨rest, ha⟩, hkind, hsel⟩) hne

/-! ### The obligations -/

/-- Settles O54: the reset move writes every piece of the block's state, in whatever phase it finds it. -/
theorem resetGivesTheResetValues : Obligations.ResetGivesTheResetValues := by
  intro s rest hn ha
  exact ⟨_, step_of_move hn ha, rfl, rfl, rfl, rfl, State.resetBlock_statusWord _, rfl, rfl, rfl, fun _ _ => rfl, rfl, rfl,
    rfl, rfl, rfl, rfl, engineStep_idle rfl, State.resetBlock_inReset _⟩

/-- Settles O56: the reset block is idle with no table, and no CHECKSUM runs. -/
theorem resetMeetsTheInvariant : Obligations.ResetMeetsTheInvariant :=
  ⟨State.reset_inv, State.crcTracksMemory_of_idle rfl⟩

/-- Settles O29: the first hazard of a run would be a store into the range that a running CHECKSUM has latched, which the
invariant names; and an access by another host that writes a register would break the premise of serialised hosts. -/
theorem launchPremisesProtectTheOperation : Obligations.LaunchPremisesProtectTheOperation := by
  refine ⟨fun s hinv hn hstable k x hfault => ?_, fun s a n k x t hstable hn hst ha hl => ?_, ?_⟩
  · obtain ⟨m, t, hst, ht⟩ := steps_fault hfault
    have hnt : t.NoFault := steps_keep (fun _ _ => step_noFault) hn hst
    have hinvt : t.Inv := steps_keep stepKeepsTheInvariant hinv hst
    obtain ⟨-, hrun, -⟩ := step_hazard hnt ht
    obtain ⟨a, len, -, -, -, ha, hl, -⟩ := hinvt.latched hrun
    exact (hstable a len).step_ne_hazard hn hst ha hl x ht
  · exact hstable.step_ne_hazard hn hst ha hl x
  · intro s t u v i m c a w hser ht hc hu hseen hnext hne hv
    obtain ⟨rest, word, rfl⟩ := hser.step_of_otherHost ht hc hu hseen hnext hne hv
    rfl

end Sys2Proof.Machine
